-- ==== Sys2Proof/Word.lean ====
section
/-! DEFINITION. The words of the machine: bytes, addresses and the 512-bit vector register value. -/

namespace Sys2Proof

/-- The smallest addressable unit (10 R42). -/
abbrev Byte := BitVec 8

/-- A 64-bit address, general register or program counter value (10 R27, R28). -/
abbrev Addr := BitVec 64

/-- The value of one vector register: MAXVL = 512 bits (00 R8, 10 R21). An XMM or YMM view, and every
intermediate value of a shorter form, is held in the low bits of such a value with zeros above. -/
abbrev VecVal := BitVec 512

end Sys2Proof
end

