-- ==== Sys2Proof/Config.lean ====
section
/-! DEFINITION. What an implementation fixes: the operating modes, the parameters of 00 R8 as plain data,
and the one free value of the model. -/

namespace Sys2Proof

/-- The operating modes of 60 R176 (parameter MODE of 00 R8). -/
inductive Mode where
  | mode64
  | compat32
  | prot32
  | real
  | v86
  deriving DecidableEq, Repr

/-- The kind of an access submitted to `Translate` (20 R63 names `read`; `fetch` is log 9). -/
inductive Access where
  | read
  | fetch
  deriving DecidableEq, Repr

/-- What `Translate` answers: a physical address or a page fault with its code (20 R63, 60 R175). -/
inductive XlatAnswer where
  /-- The first address of the range lies at this physical address, the rest follow it. -/
  | phys (base : Nat)
  /-- A page fault with this fault code; the faulting linear address is the byte's own. -/
  | fault (code : BitVec 32)
  deriving DecidableEq, Repr

/-- One row of the table that represents `Translate` (log 5): the linear addresses `first .. last`, for one
access kind and one privilege level. -/
structure XlatEntry where
  first : Nat
  last : Nat
  access : Access
  cpl : BitVec 2
  answer : XlatAnswer
  deriving DecidableEq, Repr

/-- The parameters of 00 R8 that the spec leaves OPEN or gives a default, as plain data, so that a statement
about every state is a statement about every choice of them (log 5). -/
structure Params where
  /-- AC_CHECK_VECTOR (20 R55): whether an unaligned memory operand can raise #AC. -/
  acCheckVector : Bool
  /-- LAW = 57 instead of the default 48 (00 R8, 20 R64). -/
  la57 : Bool
  /-- `Translate` (20 R63); an address no row covers is translated to itself. -/
  translate : List XlatEntry
  deriving DecidableEq, Repr

/-- The defaults of 00 R8: AC_CHECK_VECTOR false, LAW 48, no paging (20 R63). -/
def Params.default : Params := { acCheckVector := false, la57 := false, translate := [] }

/-- LAW, the number of linear-address bits that must be canonical in Mode64 (00 R8, 20 R64). -/
def Params.law (p : Params) : Nat := if p.la57 then 57 else 48

/-- FREE VALUE (DESIGN CHOICE, log 7): of several bytes of one operand that `Translate` faults, which one #PF
reports. 20 R63: "which byte address is reported when several fault is left to `Translate` and not fixed here".
It has no body, so nothing can be proved of its value. -/
opaque Config.pageFaultPick : List (BitVec 32 × Nat) → Nat

end Sys2Proof
end

