-- ==== Sys2Proof/Syntax.lean ====
section
/-! DEFINITION. The syntax of the three instructions of spec/opcode_table.json, with every operand field of
30 R80 to R95 pulled out of the encoding. -/

namespace Sys2Proof

/-- The six segment registers (10 R41). -/
inductive Seg where
  | es
  | cs
  | ss
  | ds
  | fs
  | gs
  deriving DecidableEq, Repr

/-- The vector lengths `L'L` selects (30 R85). -/
inductive VecLen where
  | v128
  | v256
  | v512
  deriving DecidableEq, Repr

/-- The admitted legacy prefixes before the EVEX prefix: at most one segment override and at most one
address-size prefix 67h, in either order (30 R111). -/
structure Prefixes where
  seg : Option Seg
  addrSize : Bool
  deriving DecidableEq, Repr

/-- The displacement that ModRM.mod selects: none (00b), one byte (01b), four bytes (10b) (30 R100, R101). -/
inductive Disp where
  | none
  | d8 (d : BitVec 8)
  | d32 (d : BitVec 32)
  deriving DecidableEq, Repr

/-- The addressing forms of a memory operand (30 R100, R101). General register numbers are 4 bits with
EVEX.B or EVEX.X on top (30 R84). -/
inductive MemOperand where
  /-- No SIB byte: the base register `B ++ rm` and a displacement. -/
  | base (b : BitVec 4) (d : Disp)
  /-- mod = 00b, rm = 101b: RIP-relative in Mode64 (R102), absolute in the 32-bit modes (R106). -/
  | ripDisp (d : BitVec 32)
  /-- SIB with a base register; the index number 0100b means no index. -/
  | sib (b : BitVec 4) (index : BitVec 4) (scale : BitVec 2) (d : Disp)
  /-- SIB with mod = 00b and SIB.base = 101b: no base register, a four-byte displacement. -/
  | sibNoBase (index : BitVec 4) (scale : BitVec 2) (d : BitVec 32)
  deriving DecidableEq, Repr

/-- Operand 3: a vector register or a memory operand of the full vector length (30 R92). -/
inductive Src2 where
  | reg (r : BitVec 5)
  | mem (m : MemOperand)
  deriving DecidableEq, Repr

/-- The operand fields every form has (30 R95). -/
structure Operands where
  prefixes : Prefixes
  /-- DEST, `R' ++ R ++ ModRM.reg`. -/
  dest : BitVec 5
  /-- SRC1, `V' ++ vvvv`. -/
  src1 : BitVec 5
  src2 : Src2
  /-- `aaa`: 0 is no writemask, n in 1..7 is `k[n]` (30 R90). -/
  mask : BitVec 3
  /-- `z`: zeroing-masking instead of merging-masking (30 R89). -/
  zeroing : Bool
  /-- The shuffle control (30 R94). -/
  imm8 : BitVec 8
  deriving DecidableEq, Repr

/-- One constructor per row of spec/opcode_table.json (30 R114). -/
inductive Instr where
  /-- VDBPSADBW xmm1 {k1}{z}, xmm2, xmm3/m128, imm8 (40 R137). -/
  | vdbpsadbw128 (o : Operands)
  /-- VDBPSADBW ymm1 {k1}{z}, ymm2, ymm3/m256, imm8 (40 R138). -/
  | vdbpsadbw256 (o : Operands)
  /-- VDBPSADBW zmm1 {k1}{z}, zmm2, zmm3/m512, imm8 (40 R139). -/
  | vdbpsadbw512 (o : Operands)
  deriving DecidableEq, Repr

end Sys2Proof
end

