-- ==== Sys2Proof/WellFormed.lean ====
section
/-! DEFINITION. Which instruction terms some byte sequence encodes. -/

namespace Sys2Proof

/-- The low three bits of a register number are those of the given encoding value. -/
def low3Is (r : BitVec 4) (v : BitVec 3) : Bool := r.setWidth 3 == v

/-- The register and displacement combinations the tables of 30 R100 and R101 have: without SIB the base's low
bits are not 100b (that selects SIB), and mod = 00b with low bits 101b is another form. -/
def MemOperand.wf : MemOperand → Bool
  | .base b d => !low3Is b 4 && !(d == Disp.none && low3Is b 5)
  | .ripDisp _ => true
  | .sib b _ _ d => !(d == Disp.none && low3Is b 5)
  | .sibNoBase _ _ _ => true

/-- A memory operand is one of the forms the tables have; a register operand always is. -/
def Src2.wf : Src2 → Bool
  | .reg _ => true
  | .mem m => m.wf

/-- `z` = 1 together with `aaa` = 000b is not a form of the instruction (30 R89). -/
def Operands.wf (o : Operands) : Bool :=
  o.src2.wf && !(o.zeroing && o.mask == 0)

/-- The operands of an instruction. -/
def Instr.operands : Instr → Operands
  | .vdbpsadbw128 o => o
  | .vdbpsadbw256 o => o
  | .vdbpsadbw512 o => o

/-- The vector length of an instruction (30 R85). -/
def Instr.vecLen : Instr → VecLen
  | .vdbpsadbw128 _ => .v128
  | .vdbpsadbw256 _ => .v256
  | .vdbpsadbw512 _ => .v512

/-- A well-formed instruction: one that 30 R114 gives an encoding in Mode64. -/
def Instr.wf (i : Instr) : Bool := i.operands.wf

/-- A general register number below 8. -/
def gprFits32 (r : BitVec 4) : Bool := !r.getLsbD 3

/-- A vector register number below 8. -/
def vecFits32 (r : BitVec 5) : Bool := !r.getLsbD 4 && !r.getLsbD 3

/-- The registers of a memory operand can be named in the 32-bit modes (30 R106). -/
def MemOperand.fits32 : MemOperand → Bool
  | .base b _ => gprFits32 b
  | .ripDisp _ => true
  | .sib b i _ _ => gprFits32 b && gprFits32 i
  | .sibNoBase i _ _ => gprFits32 i

/-- Operand 3 can be named in the 32-bit modes. -/
def Src2.fits32 : Src2 → Bool
  | .reg r => vecFits32 r
  | .mem m => m.fits32

/-- The instruction can be encoded in the 32-bit modes: only 8 vector and 8 general registers (30 R110), and no
address-size prefix (30 R109). -/
def Instr.fits32 (i : Instr) : Bool :=
  vecFits32 i.operands.dest && vecFits32 i.operands.src1 && i.operands.src2.fits32 && !i.operands.prefixes.addrSize

end Sys2Proof
end

