-- ==== Sys2Proof/Decode.lean ====
section
/-! DEFINITION. The decoder, total on any bytes and refusing by name (30 R113, R116), the encoder from the same
tables, and the instruction length. -/

namespace Sys2Proof

/-- The reasons 30 R116 gives the decoder for a refusal. All are safe: the model stops where the processor may
go on. -/
inductive DecodeRefusal where
  /-- Bytes that are neither a form nor a #UD variant of this opcode (30 R116). -/
  | notThisInstruction
  /-- 16-bit addressing (30 R109). -/
  | addr16
  /-- A non-canonical spelling of the extension bits in a 32-bit mode (30 R110). -/
  | evex32
  /-- A repeated or second segment override, or a repeated 67h (30 R111). -/
  | prefixes
  /-- `X` = 1 with a memory operand that has no SIB byte (30 R117). -/
  | xNoSib
  deriving DecidableEq, Repr

/-- What reading some bytes answers: a value and the bytes after it, the #UD of 30 R115, a refusal, or that the
bytes ran out. -/
inductive Parsed (α : Type) where
  | got (a : α) (rest : List Byte)
  | ud
  | refused (r : DecodeRefusal)
  | more
  deriving DecidableEq, Repr

/-- Read on after a first part. -/
def Parsed.bind {α β : Type} : Parsed α → (α → List Byte → Parsed β) → Parsed β
  | .got a rest, f => f a rest
  | .ud, _ => .ud
  | .refused r, _ => .refused r
  | .more, _ => .more

/-- Bits `lo .. lo + w - 1` of a value. -/
def field {n : Nat} (v : BitVec n) (lo w : Nat) : BitVec w := v.extractLsb' lo w

/-- One byte (20 R51: ascending address order). -/
def readByte : List Byte → Parsed Byte
  | [] => .more
  | b :: rest => .got b rest

/-- Four bytes, the least significant first (20 R51, 30 R103). -/
def readDisp32 : List Byte → Parsed (BitVec 32)
  | a :: b :: c :: d :: rest => .got (d ++ c ++ b ++ a) rest
  | _ => .more

/-- The displacement ModRM.mod selects (30 R100, R101). -/
def readDisp (mod : BitVec 2) (bytes : List Byte) : Parsed Disp :=
  if mod = 0#2 then .got .none bytes
  else if mod = 1#2 then (readByte bytes).bind fun b r => .got (.d8 b) r
  else (readDisp32 bytes).bind fun d r => .got (.d32 d) r

/-- The segment-override prefixes (30 R107, R111). -/
def segOfByte (b : Byte) : Option Seg :=
  if b = 0x26#8 then some .es
  else if b = 0x2E#8 then some .cs
  else if b = 0x36#8 then some .ss
  else if b = 0x3E#8 then some .ds
  else if b = 0x64#8 then some .fs
  else if b = 0x65#8 then some .gs
  else none

/-- The legacy prefixes that make the encoding #UD (30 R111, R115): 66h, F2h, F3h, LOCK. -/
def forbiddenPrefix (b : Byte) : Bool := b == 0x66#8 || b == 0xF2#8 || b == 0xF3#8 || b == 0xF0#8

/-- A REX prefix 40h..4Fh, which exists in Mode64 only (30 R111). -/
def rexPrefix (m : Mode) (b : Byte) : Bool := m == .mode64 && field b 4 4 == 4#4

/-- The prefixes before the first byte that is none: what was admitted, and whether a prefix that makes the
encoding #UD was among them. A REX prefix ends the scan, since it governs only what follows it at once (log 11). -/
def scanPrefixes (m : Mode) (p : Prefixes) (bad : Bool) : List Byte → Parsed (Prefixes × Bool)
  | [] => .more
  | b :: rest =>
    match segOfByte b with
    | some s => if p.seg.isSome then .refused .prefixes else scanPrefixes m { p with seg := some s } bad rest
    | none =>
      if b = 0x67#8 then
        if p.addrSize then .refused .prefixes else scanPrefixes m { p with addrSize := true } bad rest
      else if forbiddenPrefix b then scanPrefixes m p true rest
      else if rexPrefix m b then .got (p, true) rest
      else .got (p, bad) (b :: rest)

/-- 30 R110: in every mode but Mode64 the byte 62h begins an EVEX prefix only if bits 7:6 of the next byte are
11b; otherwise it is another instruction (for Real and V86: log 12). -/
def evexHere (m : Mode) (p0 : Byte) : Bool := m == .mode64 || field p0 6 2 == 3#2

/-- mm = 11b, pp = 01b and the opcode byte 42h: a form or a variant of this opcode (30 R115). -/
def isVdbpsadbw (p0 p1 op : Byte) : Bool := field p0 0 2 == 3#2 && field p1 0 2 == 1#2 && op == 0x42#8

/-- The encodings of this opcode that raise #UD (30 R115, first five rows). -/
def udVariant (p0 p1 p2 : Byte) : Bool :=
  field p2 5 2 == 3#2 || p2.getLsbD 4 || p1.getLsbD 7 || (p2.getLsbD 7 && field p2 0 3 == 0#3)
    || field p0 2 2 != 0#2 || !p1.getLsbD 2

/-- The only spelling of the extension bits admitted in the 32-bit modes (30 R110). -/
def canonical32 (p0 p1 p2 : Byte) : Bool := field p0 4 4 == 15#4 && p1.getLsbD 6 && p2.getLsbD 3

/-- A 4-bit general register number: an extension bit on top of three bits (30 R84). -/
def regNum4 (ext : Bool) (low : BitVec 3) : BitVec 4 := BitVec.ofBool ext ++ low

/-- A 5-bit vector register number (30 R84). -/
def regNum5 (hi mid : Bool) (low : BitVec 3) : BitVec 5 := BitVec.ofBool hi ++ BitVec.ofBool mid ++ low

/-- DEST, `R' ++ R ++ ModRM.reg`, the prefix bits being stored inverted (30 R84). -/
def destOf (p0 modrm : Byte) : BitVec 5 := regNum5 (!p0.getLsbD 4) (!p0.getLsbD 7) (field modrm 3 3)

/-- SRC1, `V' ++ vvvv`, stored inverted (30 R84). -/
def src1Of (p1 p2 : Byte) : BitVec 5 := BitVec.ofBool (!p2.getLsbD 3) ++ ~~~(field p1 3 4)

/-- The SIB form of a memory operand (30 R93, R101). -/
def readSib (x b : Bool) (mod : BitVec 2) (bytes : List Byte) : Parsed Src2 :=
  (readByte bytes).bind fun sib rest =>
    let index := regNum4 x (field sib 3 3)
    let scale := field sib 6 2
    if mod = 0#2 ∧ field sib 0 3 = 5#3 then
      (readDisp32 rest).bind fun d r => .got (.mem (.sibNoBase index scale d)) r
    else
      (readDisp mod rest).bind fun d r => .got (.mem (.sib (regNum4 b (field sib 0 3)) index scale d)) r

/-- Operand 3 (30 R92, R100, R101, R117). -/
def readSrc2Field (p0 modrm : Byte) (bytes : List Byte) : Parsed Src2 :=
  let x := !p0.getLsbD 6
  let b := !p0.getLsbD 5
  let mod := field modrm 6 2
  let rm := field modrm 0 3
  if mod = 3#2 then .got (.reg (regNum5 x b rm)) bytes
  else if rm = 4#3 then readSib x b mod bytes
  else if x then .refused .xNoSib
  else if mod = 0#2 ∧ rm = 5#3 then
    (readDisp32 bytes).bind fun d r => .got (.mem (.ripDisp d)) r
  else (readDisp mod bytes).bind fun d r => .got (.mem (.base (regNum4 b rm) d)) r

/-- The form `L'L` selects (30 R85); 11b does not come here (30 R115). -/
def formOf (ll : BitVec 2) (o : Operands) : Instr :=
  if ll = 0#2 then .vdbpsadbw128 o
  else if ll = 1#2 then .vdbpsadbw256 o
  else .vdbpsadbw512 o

/-- ModRM, SIB, displacement and immediate (30 R95, R113). -/
def readOperands (p : Prefixes) (p0 p1 p2 : Byte) (bytes : List Byte) : Parsed Instr :=
  (readByte bytes).bind fun modrm rest =>
    (readSrc2Field p0 modrm rest).bind fun src2 rest =>
      (readByte rest).bind fun imm rest =>
        .got (formOf (field p2 5 2)
          { prefixes := p, dest := destOf p0 modrm, src1 := src1Of p1 p2, src2 := src2,
            mask := field p2 0 3, zeroing := p2.getLsbD 7, imm8 := imm }) rest

/-- The EVEX prefix and the opcode byte (30 R82, R83, R115). The #UD of a variant comes before the refusals of
R109, R110 and R117, which speak of the instruction's own forms (log 10). -/
def decodeEvex (m : Mode) (csD : Bool) (p : Prefixes) (bad : Bool) (p0 p1 p2 op : Byte) (bytes : List Byte) :
    Parsed Instr :=
  if !isVdbpsadbw p0 p1 op then .refused .notThisInstruction
  else if m = .real ∨ m = .v86 then .ud
  else if bad || udVariant p0 p1 p2 then .ud
  else if m ≠ .mode64 ∧ (p.addrSize || !csD) then .refused .addr16
  else if m ≠ .mode64 ∧ canonical32 p0 p1 p2 = false then .refused .evex32
  else readOperands p p0 p1 p2 bytes

/-- What follows the legacy prefixes, in the order of 30 R113: 62h; P0, whose bits 7:6 decide outside Mode64 whether
this is an EVEX prefix at all, before any further byte is read (R110); P1, P2 and the opcode byte. -/
def decodeBody (m : Mode) (csD : Bool) (p : Prefixes) (bad : Bool) (bytes : List Byte) : Parsed Instr :=
  (readByte bytes).bind fun b rest =>
    if b ≠ 0x62#8 then .refused .notThisInstruction
    else (readByte rest).bind fun p0 rest =>
      if !evexHere m p0 then .refused .notThisInstruction
      else (readByte rest).bind fun p1 rest =>
        (readByte rest).bind fun p2 rest =>
          (readByte rest).bind fun op rest => decodeEvex m csD p bad p0 p1 p2 op rest

/-- The decoder of 30 R113 in an operating mode, with CS.D. -/
def decode (m : Mode) (csD : Bool) (bytes : List Byte) : Parsed Instr :=
  (scanPrefixes m { seg := none, addrSize := false } false bytes).bind fun p rest =>
    decodeBody m csD p.1 p.2 rest

/-! The encoder. -/

/-- The byte of a segment override (30 R107). -/
def segByte : Seg → Byte
  | .es => 0x26#8
  | .cs => 0x2E#8
  | .ss => 0x36#8
  | .ds => 0x3E#8
  | .fs => 0x64#8
  | .gs => 0x65#8

/-- The legacy prefixes, the segment override first (either order is admitted, 30 R111). -/
def encodePrefixes (p : Prefixes) : List Byte :=
  (match p.seg with
    | some s => [segByte s]
    | none => []) ++ (if p.addrSize then [0x67#8] else [])

/-- The bit X of operand 3 (30 R84). -/
def Src2.xBit : Src2 → Bool
  | .reg r => r.getLsbD 4
  | .mem (.base _ _) => false
  | .mem (.ripDisp _) => false
  | .mem (.sib _ i _ _) => i.getLsbD 3
  | .mem (.sibNoBase i _ _) => i.getLsbD 3

/-- The bit B of operand 3 (30 R84). -/
def Src2.bBit : Src2 → Bool
  | .reg r => r.getLsbD 3
  | .mem (.base b _) => b.getLsbD 3
  | .mem (.ripDisp _) => false
  | .mem (.sib b _ _ _) => b.getLsbD 3
  | .mem (.sibNoBase _ _ _) => false

/-- ModRM.mod of a displacement (30 R100, R101). -/
def Disp.mod : Disp → BitVec 2
  | .none => 0
  | .d8 _ => 1
  | .d32 _ => 2

/-- A four-byte value, least significant byte first (20 R51). -/
def encodeDisp32 (d : BitVec 32) : List Byte := [field d 0 8, field d 8 8, field d 16 8, field d 24 8]

/-- The displacement bytes. -/
def Disp.bytes : Disp → List Byte
  | .none => []
  | .d8 d => [d]
  | .d32 d => encodeDisp32 d

/-- The ModRM byte (30 R92). -/
def modrmByte (mod : BitVec 2) (reg rm : BitVec 3) : Byte := mod ++ reg ++ rm

/-- ModRM with its SIB byte and displacement, for operand 3 and the low bits of DEST (30 R92, R93). -/
def Src2.encode (reg : BitVec 3) : Src2 → List Byte
  | .reg r => [modrmByte 3 reg (field r 0 3)]
  | .mem (.base b d) => modrmByte d.mod reg (field b 0 3) :: d.bytes
  | .mem (.ripDisp d) => modrmByte 0 reg 5 :: encodeDisp32 d
  | .mem (.sib b i s d) => modrmByte d.mod reg 4 :: modrmByte s (field i 0 3) (field b 0 3) :: d.bytes
  | .mem (.sibNoBase i s d) => modrmByte 0 reg 4 :: modrmByte s (field i 0 3) 5 :: encodeDisp32 d

/-- The byte P0 (30 R82): inverted R, X, B, R', then 00b and mm = 11b. -/
def encodeP0 (o : Operands) : Byte :=
  BitVec.ofBool (!o.dest.getLsbD 3) ++ BitVec.ofBool (!o.src2.xBit) ++ BitVec.ofBool (!o.src2.bBit)
    ++ BitVec.ofBool (!o.dest.getLsbD 4) ++ 3#4

/-- The byte P1 (30 R82): W = 0, inverted vvvv, 1, pp = 01b. -/
def encodeP1 (o : Operands) : Byte := 0#1 ++ ~~~(field o.src1 0 4) ++ 5#3

/-- The field `L'L` (30 R85). -/
def VecLen.ll : VecLen → BitVec 2
  | .v128 => 0
  | .v256 => 1
  | .v512 => 2

/-- The byte P2 (30 R82): z, L'L, b = 0, inverted V', aaa. -/
def encodeP2 (vl : VecLen) (o : Operands) : Byte :=
  BitVec.ofBool o.zeroing ++ vl.ll ++ 0#1 ++ BitVec.ofBool (!o.src1.getLsbD 4) ++ o.mask

/-- The bytes of an instruction (30 R80), in the shape its operands name. -/
def encode (i : Instr) : List Byte :=
  encodePrefixes i.operands.prefixes
    ++ [0x62#8, encodeP0 i.operands, encodeP1 i.operands, encodeP2 i.vecLen i.operands, 0x42#8]
    ++ i.operands.src2.encode (field i.operands.dest 0 3) ++ [i.operands.imm8]

/-! The instruction length. -/

/-- `npfx` of 30 R112. -/
def Prefixes.count (p : Prefixes) : Nat := (if p.seg.isSome then 1 else 0) + (if p.addrSize then 1 else 0)

/-- `ndisp` of a displacement (30 R112). -/
def Disp.size : Disp → Nat
  | .none => 0
  | .d8 _ => 1
  | .d32 _ => 4

/-- `nsib` of 30 R112. -/
def Src2.nsib : Src2 → Nat
  | .reg _ => 0
  | .mem (.base _ _) => 0
  | .mem (.ripDisp _) => 0
  | .mem (.sib _ _ _ _) => 1
  | .mem (.sibNoBase _ _ _) => 1

/-- `ndisp` of 30 R112. -/
def Src2.ndisp : Src2 → Nat
  | .reg _ => 0
  | .mem (.base _ d) => d.size
  | .mem (.ripDisp _) => 4
  | .mem (.sib _ _ _ d) => d.size
  | .mem (.sibNoBase _ _ _) => 4

/-- `ilen = npfx + 4 + 1 + 1 + nsib + ndisp + 1` (30 R112). -/
def Operands.ilen (o : Operands) : Nat := o.prefixes.count + 4 + 1 + 1 + o.src2.nsib + o.src2.ndisp + 1

/-! Words of spec/opcode_table.json. -/

/-- The longest admitted form (30 R112). -/
def maxForm : Nat := 14

/-- The bytes of an instruction whose bits are `w`, bit 0 the least significant bit of the first byte; the bits at
`nbits` and above are 0, up to the longest form. -/
def tableBytes (nbits w : Nat) : List Byte :=
  (List.range maxForm).map fun i => BitVec.ofNat 8 ((w % 2 ^ nbits) >>> (8 * i))

/-- What the decoder reads, in Mode64, from an instruction whose bits are `w`. -/
def decodeTableWord (nbits w : Nat) : Option Instr :=
  match decode .mode64 true (tableBytes nbits w) with
  | .got i _ => some i
  | .ud => none
  | .refused _ => none
  | .more => none

end Sys2Proof
end

