-- ==== Sys2Proof/Machine/State.lean ====
section
/-! DEFINITION. The state of the machine (10 R20), why a step can stop, and the state a run starts from. -/

namespace Sys2Proof.Machine

/-- The launch memory (10 R42, 20 R64): the plain readable bytes, by rising address. An address that is not
listed holds no plain byte (20 R60). -/
abbrev Memory := List Host.Cell

/-- One row of the table that represents `SegCheck` of a segment (20 R62, log 6): accesses of `width` bytes at an
effective address in `first .. last` are denied. -/
structure SegDeny where
  first : Nat
  last : Nat
  width : Nat
  deriving DecidableEq, Repr

/-- What the model keeps of a segment register: a base address and a check (10 R41). -/
structure SegState where
  base : BitVec 64
  deny : List SegDeny
  deriving DecidableEq, Repr

/-- The six segment registers (10 R41). -/
structure SegFile where
  es : SegState
  cs : SegState
  ss : SegState
  ds : SegState
  fs : SegState
  gs : SegState
  deriving DecidableEq, Repr

/-- The CPUID feature flags, constants of the processor (10 R40). -/
structure Cpuid where
  avx512f : Bool
  avx512bw : Bool
  avx512vl : Bool
  deriving DecidableEq, Repr

/-- The state of the machine, as 10 R20 lists it, and the parameters of 00 R8 (log 5). -/
structure State where
  /-- Vector registers (10 R21). -/
  zmm : Vector VecVal 32
  /-- Opmask registers (10 R24). -/
  k : Vector (BitVec 64) 8
  /-- General registers (10 R27). -/
  gpr : Vector (BitVec 64) 16
  /-- Program counter (10 R28). -/
  rip : BitVec 64
  /-- Flags (10 R31). -/
  rflags : BitVec 64
  /-- SIMD control and status (10 R32). -/
  mxcsr : BitVec 32
  /-- Segment registers (10 R41). -/
  seg : SegFile
  /-- Descriptor attribute L of CS (10 R40). -/
  csL : Bool
  /-- Descriptor attribute D of CS (10 R40). -/
  csD : Bool
  /-- Current privilege level (10 R40, log 15). -/
  cpl : BitVec 2
  /-- Control register 0 (10 R40, log 14). -/
  cr0 : BitVec 64
  /-- Control register 4 (10 R40, log 14). -/
  cr4 : BitVec 64
  /-- Extended control register 0 (10 R40, log 14). -/
  xcr0 : BitVec 64
  /-- Extended feature enables (10 R40, log 14). -/
  efer : BitVec 64
  /-- CPUID feature flags (10 R20, R40). -/
  cpuid : Cpuid
  /-- Memory (10 R42). -/
  mem : Memory
  /-- The parameters of 00 R8 that are read-only data here; the model's own field (log 5). -/
  params : Params
  deriving DecidableEq, Repr

/-- The exceptions of 60 R171. All are of the fault kind: the instruction changed nothing and `rip` is its first
byte (60 R185). The exception is not delivered (60 R186); the run ends here, which is safe. -/
inductive Fault where
  /-- #UD, invalid opcode. Raised by the decoder through `step` (30 R115) and by `gate` (60 R172). Safe. -/
  | ud
  /-- #NM, device not available. Raised by `gate` (60 R173). Safe. -/
  | nm
  /-- #SS(0). Raised by `memRead` for a segment-level fault of an operand in SS (60 R174). Safe. -/
  | ss
  /-- #GP(0). Raised by `memRead` for a segment-level fault of an operand in another segment (60 R174). Safe. -/
  | gp
  /-- #PF with the fault code and the faulting linear address. Raised by `memRead` (60 R175). Safe. -/
  | pf (code : BitVec 32) (addr : BitVec 64)
  /-- #AC(0). Raised by `memRead` only if AC_CHECK_VECTOR is true (20 R55, 60 R177). Safe. -/
  | ac
  deriving DecidableEq, Repr

/-- Why a step is refused (00 R15, 30 R116). A refusal is safe: the model says nothing of what the processor
does. -/
inductive Refusal where
  /-- An instruction that has no meaning yet; raised by no arm of `exec`. Safe. -/
  | notModelled (mnemonic : String)
  /-- Bytes outside this spec. Raised by the decoder through `step` (30 R116). Safe. -/
  | notThisInstruction
  /-- 16-bit addressing. Raised by the decoder through `step` (30 R109). Safe. -/
  | addr16
  /-- Non-canonical extension bits in a 32-bit mode. Raised by the decoder through `step` (30 R110). Safe. -/
  | evex32
  /-- Repeated prefixes. Raised by the decoder through `step` (30 R111). Safe. -/
  | prefixes
  /-- `X` = 1 without SIB. Raised by the decoder through `step` (30 R117). Safe. -/
  | xNoSib
  /-- A byte of the memory operand is no plain memory. Raised by `memRead` (20 R60). Safe. -/
  | notPlainMemory
  /-- The memory operand runs past the top of the address space. Raised by `memRead` (20 R65). Safe. -/
  | addressWrap
  /-- An instruction byte is no plain memory or lies past the top of the address space. Raised by `step`
  (60 R181, log 9). Safe. -/
  | fetchOutsideMemory
  /-- An instruction byte's address is not canonical or does not translate. Raised by `step` (60 R181, log 9).
  Safe. -/
  | fetchFault
  /-- More than 15 bytes would be needed. Raised by `step` (60 R181, log 9). Safe. -/
  | instructionTooLong
  deriving DecidableEq, Repr

/-- A segment with base 0 that denies nothing (log 3). -/
def SegState.flat : SegState := { base := 0, deny := [] }

/-- The start state of the model. 10 R45 and 70 R210: the model does not begin at reset but at a launch state
that meets the premises of 70 R211. This is the launch state with the controls of `modeOk` and `enabled` in
Mode64 and zero in every register for which the spec admits any value (DESIGN CHOICE, log 2, 3, 4). -/
def State.reset : State where
  zmm := Vector.replicate 32 0
  k := Vector.replicate 8 0
  gpr := Vector.replicate 16 0
  rip := 0
  rflags := 0
  mxcsr := 0
  seg :=
    { es := SegState.flat, cs := SegState.flat, ss := SegState.flat, ds := SegState.flat, fs := SegState.flat,
      gs := SegState.flat }
  csL := true
  csD := false
  cpl := 0
  cr0 := 0x1
  cr4 := 0x40000
  xcr0 := 0xE7
  efer := 0x400
  cpuid := { avx512f := true, avx512bw := true, avx512vl := true }
  mem := []
  params := Params.default

/-- For the record (10 R45): of the controls as a real processor's reset leaves them the rule gives real-address mode
(so cr0.PE = 0), `cr4.OSXSAVE` = 0 and `xcr0` = 1. Every other bit of cr0 and cr4, all of efer, and CS.L are 0 here and
everything else is as in `State.reset`, of which the rule says nothing (DESIGN CHOICE, log 32). -/
def State.hardReset : State :=
  { State.reset with csL := false, cr0 := 0, cr4 := 0, xcr0 := 1, efer := 0 }

end Sys2Proof.Machine
end

