-- ==== Sys2Proof/Machine/Elements.lean ====
section
/-! DEFINITION. Element views of vector values (00 R9), assembling a value from its elements, and the integer
operations of the data path (00 R10, R11). -/

namespace Sys2Proof

/-- VL in bits (00 R8). -/
def VecLen.bits : VecLen → Nat
  | .v128 => 128
  | .v256 => 256
  | .v512 => 512

/-- `N = VL/8`, the size of a memory operand in bytes and the scale of a one-byte displacement (30 R104). -/
def VecLen.bytes (vl : VecLen) : Nat := vl.bits / 8

/-- KL, the number of result words and of mask bits used (00 R8). -/
def VecLen.words (vl : VecLen) : Nat := vl.bits / 16

end Sys2Proof

namespace Sys2Proof.Machine

/-- Element `i` of width `w` of a value: bits `w*i + w - 1 .. w*i` (00 R9). -/
def elem {n : Nat} (w : Nat) (v : BitVec n) (i : Nat) : BitVec w := v.extractLsb' (w * i) w

/-- `byte(v, i)` (00 R9). -/
abbrev byteAt {n : Nat} (v : BitVec n) (i : Nat) : BitVec 8 := elem 8 v i

/-- `word(v, i)` (00 R9). -/
abbrev wordAt {n : Nat} (v : BitVec n) (i : Nat) : BitVec 16 := elem 16 v i

/-- `dword(v, i)` (00 R9). -/
abbrev dwordAt {n : Nat} (v : BitVec n) (i : Nat) : BitVec 32 := elem 32 v i

/-- `qword(v, i)`, a superblock (00 R9). -/
abbrev qwordAt {n : Nat} (v : BitVec n) (i : Nat) : BitVec 64 := elem 64 v i

/-- `lane(v, i)` (00 R9). -/
abbrev laneAt {n : Nat} (v : BitVec n) (i : Nat) : BitVec 128 := elem 128 v i

/-- The vector value whose first `n` elements of width `w` are `f 0 .. f (n-1)`, with zeros above. -/
def pack (w : Nat) (f : Nat → BitVec w) : Nat → VecVal
  | 0 => 0
  | n + 1 => pack w f n ||| ((f n).setWidth 512 <<< (w * n))

/-- Bits `VL-1:0` of a register, the XMM, YMM or ZMM view (10 R21). -/
def low (vl : VecLen) (v : VecVal) : VecVal := (v.setWidth vl.bits).setWidth 512

/-- `ABS(a - b)` of two unsigned bytes (00 R10). -/
def absDiff (a b : Byte) : Nat := ((a.toNat : Int) - (b.toNat : Int)).natAbs

/-- `sad4` (00 R11, 40 R132). -/
def sad4 (a b : BitVec 32) : Nat :=
  absDiff (byteAt a 0) (byteAt b 0) + absDiff (byteAt a 1) (byteAt b 1) + absDiff (byteAt a 2) (byteAt b 2)
    + absDiff (byteAt a 3) (byteAt b 3)

/-- `select(lane, s)` (40 R130). -/
def select (lane : BitVec 128) (s : BitVec 2) : BitVec 32 := dwordAt lane s.toNat

end Sys2Proof.Machine
end

