-- ==== Sys2Proof/Machine/Flags.lean ====
section
/-! DEFINITION. The control and flag bits that are read (10 R40), the operating mode (60 R176) and the
conditions of #UD and #NM (60 R172, R173). The instruction computes and writes no flag (10 R31, R32). -/

namespace Sys2Proof.Machine

/-- `cr0.PE` (10 R40). -/
def State.pe (s : State) : Bool := s.cr0.getLsbD 0

/-- `cr0.TS` (10 R40). -/
def State.ts (s : State) : Bool := s.cr0.getLsbD 3

/-- `cr0.AM` (10 R40). -/
def State.am (s : State) : Bool := s.cr0.getLsbD 18

/-- `cr4.OSXSAVE` (10 R40). -/
def State.osxsave (s : State) : Bool := s.cr4.getLsbD 18

/-- `xcr0[2:1]` = 11b and `xcr0[7:5]` = 111b (10 R40, 60 R172). Bit 0, which 70 R212 lists and R172 does not, raises
no #UD (DESIGN CHOICE, log 27). -/
def State.xcr0Enabled (s : State) : Bool := s.xcr0.extractLsb' 1 2 == 3#2 && s.xcr0.extractLsb' 5 3 == 7#3

/-- `efer.LMA` (10 R40). -/
def State.lma (s : State) : Bool := s.efer.getLsbD 10

/-- `rflags.VM` (10 R40). -/
def State.vm (s : State) : Bool := s.rflags.getLsbD 17

/-- `xcr0[0]`, the x87 bit of 70 R212, read by the premise `enabled` only (DESIGN CHOICE, log 27). -/
def State.xcr0X87 (s : State) : Bool := s.xcr0.getLsbD 0

/-- The single-step flag of 60 R199 and 70 R211, at bit 8 of rflags (PRESUMED, log 29). No instruction reads it. -/
def State.tf (s : State) : Bool := s.rflags.getLsbD 8

/-- `rflags.AC` (10 R40). -/
def State.acFlag (s : State) : Bool := s.rflags.getLsbD 18

/-- MODE (60 R176). Where rows overlap, VM decides before LMA (DESIGN CHOICE, log 1). -/
def State.mode (s : State) : Mode :=
  if !s.pe then .real
  else if s.vm then .v86
  else if !s.lma then .prot32
  else if s.csL then .mode64
  else .compat32

/-- The CPUID flags a form needs (60 R172). -/
def cpuidOk (vl : VecLen) (c : Cpuid) : Bool := c.avx512f && c.avx512bw && (vl == .v512 || c.avx512vl)

/-- The state conditions under which a form raises #UD (60 R172, all rows but the encoding's). -/
def udState (vl : VecLen) (s : State) : Bool :=
  s.mode == .real || s.mode == .v86 || !s.osxsave || !s.xcr0Enabled || !cpuidOk vl s.cpuid

/-- #UD, then #NM, before anything else (60 R172, R173, R180). -/
def gate (vl : VecLen) (s : State) : Option Fault :=
  if udState vl s then some .ud
  else if s.ts then some .nm
  else none

/-- The vector number of an exception (60 R171). -/
def Fault.vector : Fault → Nat
  | .ud => 6
  | .nm => 7
  | .ss => 12
  | .gp => 13
  | .pf _ _ => 14
  | .ac => 17

/-- The error code of an exception, where it has one (60 R171). -/
def Fault.errorCode : Fault → Option (BitVec 32)
  | .ud => none
  | .nm => none
  | .ss => some 0
  | .gp => some 0
  | .pf code _ => some code
  | .ac => some 0

end Sys2Proof.Machine
end

