-- ==== Sys2Proof/Machine/Ops.lean ====
section
/-! DEFINITION. The named operations over memory and registers: registers, the program counter, taking an
exception, `Translate`, `SegCheck`, `MemRead`, and fetching an instruction's bytes. -/

namespace Sys2Proof

/-- Whether a row of the table covers the access. -/
def XlatEntry.covers (e : XlatEntry) (la : Nat) (a : Access) (cpl : BitVec 2) : Bool :=
  decide (e.first ≤ la) && decide (la ≤ e.last) && e.access == a && e.cpl == cpl

end Sys2Proof

namespace Sys2Proof.Machine

/-! Why an operation stops, and taking an exception. -/

/-- An operation inside an instruction stops by an exception or by a refusal. -/
inductive Stop where
  | fault (f : Fault)
  | refused (r : Refusal)
  deriving DecidableEq, Repr

/-- Taking an exception (60 R185, R186): the instruction has changed nothing, the exception is not delivered, and
the run ends at the fault. -/
def raise (f : Fault) : Host.Outcome State Fault Refusal := .fault f

/-- The outcome of a step that an operation stops. -/
def Stop.outcome : Stop → Host.Outcome State Fault Refusal
  | .fault f => raise f
  | .refused r => .refused r

/-! Registers. -/

/-- `zmm[r]`, all MAXVL bits (00 R11). -/
def State.readZmm (s : State) (r : BitVec 5) : VecVal := s.zmm[r.toNat]'(r.isLt)

/-- `zmm[r] <- v`, all MAXVL bits (00 R11). -/
def State.writeZmm (s : State) (r : BitVec 5) (v : VecVal) : State :=
  { s with zmm := s.zmm.set r.toNat v r.isLt }

/-- `k[i]` (00 R11). -/
def State.readK (s : State) (i : BitVec 3) : BitVec 64 := s.k[i.toNat]'(i.isLt)

/-- `gpr[i]` (00 R11). -/
def State.readGpr (s : State) (i : BitVec 4) : BitVec 64 := s.gpr[i.toNat]'(i.isLt)

/-- The low 32 bits of a value, zero-extended. -/
def low32 (v : BitVec 64) : BitVec 64 := (v.setWidth 32).setWidth 64

/-- The program counter as the mode reads it: `rip`, or `eip`, its low 32 bits (10 R28). In Real and V86, of which
R28 does not speak, it is `eip` too (DESIGN CHOICE, log 31). -/
def State.ip (s : State) : BitVec 64 := if s.mode = .mode64 then s.rip else low32 s.rip

/-- `rip + n` modulo 2^64 in Mode64 and modulo 2^32 in the other modes (10 R29; Real and V86: log 31). -/
def State.nextIp (s : State) (n : Nat) : BitVec 64 :=
  if s.mode = .mode64 then s.rip + BitVec.ofNat 64 n else low32 (s.rip + BitVec.ofNat 64 n)

/-- `pc <- rip + ilen` (10 R29). -/
def State.advance (s : State) (n : Nat) : State := { s with rip := s.nextIp n }

/-! Memory. -/

/-- The plain byte at an address, if there is one (20 R60). -/
def Memory.read : Memory → Nat → Option Byte
  | [], _ => none
  | (c, b) :: m, a => if a = c then some b else Memory.read m a

/-- The memory with a byte placed at an address. No instruction does this (20 R56); it builds launch memories. -/
def Memory.store (a : Nat) (b : Byte) : Memory → Memory
  | [] => [(a, b)]
  | (c, d) :: m =>
    if a < c then (a, b) :: (c, d) :: m
    else if a = c then (a, b) :: m
    else (c, d) :: Memory.store a b m

/-- The canonical form: addresses strictly rising. An unlisted address reads as no byte at all, so no entry can
equal what an unlisted address reads as. -/
abbrev Memory.wf (m : Memory) : Prop := m.Pairwise fun x y => x.1 < y.1

/-! Segmentation and translation. -/

/-- The segment register's state. -/
def SegFile.get (f : SegFile) : Seg → SegState
  | .es => f.es
  | .cs => f.cs
  | .ss => f.ss
  | .ds => f.ds
  | .fs => f.fs
  | .gs => f.gs

/-- `SegBase(s)` in Mode64: 0 but for FS and GS (20 R62). -/
def segBase64 (f : SegFile) : Seg → BitVec 64
  | .fs => f.fs.base
  | .gs => f.gs.base
  | .es => 0
  | .cs => 0
  | .ss => 0
  | .ds => 0

/-- The linear address `la` of an effective address in a segment (20 R62, 30 R108). -/
def linearAddr (s : State) (sg : Seg) (ea : BitVec 64) : BitVec 64 :=
  if s.mode = .mode64 then segBase64 s.seg sg + ea else low32 ((s.seg.get sg).base + ea)

/-- Whether a row of the table covers the access. -/
def SegDeny.covers (d : SegDeny) (ea n : Nat) : Bool := decide (d.first ≤ ea) && decide (ea ≤ d.last) && d.width == n

/-- `SegCheck(s, ea, n, read)` denies the access (20 R62, log 6). -/
def segDenies (st : SegState) (ea n : Nat) : Bool := st.deny.any fun d => d.covers ea n

/-- The exception of a segment-level fault: #SS(0) in SS, #GP(0) in any other segment (60 R174). -/
def segFault (sg : Seg) : Fault := if sg = .ss then .ss else .gp

/-- Bits `63:LAW-1` of a linear address are all equal (20 R64). -/
def canonical (law : Nat) (a : BitVec 64) : Bool :=
  (a.sshiftRight (law - 1)) == 0#64 || (a.sshiftRight (law - 1)) == BitVec.allOnes 64

/-- `Translate` (20 R63, log 5): the first row that covers the access answers; with none, the identity. -/
def translate : List XlatEntry → Nat → Access → BitVec 2 → Except (BitVec 32) Nat
  | [], la, _, _ => .ok la
  | e :: es, la, a, cpl =>
    if e.covers la a cpl then
      match e.answer with
      | .phys base => .ok (base + (la - e.first))
      | .fault code => .error code
    else translate es la a cpl

/-! `MemRead`. -/

/-- The top of the linear address space of the mode (20 R64, R65); in Real and V86 2^32 (DESIGN CHOICE, log 31). -/
def State.top (s : State) : Nat := if s.mode = .mode64 then 2 ^ 64 else 2 ^ 32

/-- The segment-level check of the whole operand fails (20 R62, R64; 60 R174): in Mode64 some byte address is not
canonical, otherwise `SegCheck` denies the access. -/
def segmentFaults (s : State) (sg : Seg) (ea : BitVec 64) (n : Nat) : Bool :=
  if s.mode = .mode64 then
    (List.range n).any fun i => !canonical s.params.law (linearAddr s sg ea + BitVec.ofNat 64 i)
  else segDenies (s.seg.get sg) ea.toNat n

/-- The faults `Translate` answers for the bytes `la + i`, with their linear addresses (20 R63, 60 R175). -/
def pageFaults (s : State) (la n : Nat) : List (BitVec 32 × Nat) :=
  (List.range n).filterMap fun i =>
    match translate s.params.translate (la + i) .read s.cpl with
    | .ok _ => none
    | .error code => some (code, la + i)

/-- The page fault reported: the only one, or one of several that 20 R63 leaves open (log 7). -/
def pickPageFault (f : BitVec 32 × Nat) : List (BitVec 32 × Nat) → BitVec 32 × Nat
  | [] => f
  | g :: fs => (f :: g :: fs).getD (Config.pageFaultPick (f :: g :: fs) % (f :: g :: fs).length) f

/-- The alignment condition of #AC(0) (20 R55). -/
def alignFaults (s : State) (la n : Nat) : Bool :=
  s.params.acCheckVector && s.am && s.acFlag && s.cpl == 3#2 && la % n != 0

/-- The plain byte that a data read of a linear address finds (20 R60, R63). -/
def State.dataByte (s : State) (la : Nat) : Option Byte :=
  match translate s.params.translate la .read s.cpl with
  | .ok pa => s.mem.read pa
  | .error _ => none

/-- `MemRead(la, n)` with its checks, in the order of 20 R61 and 60 R180 and with the refusals of 20 R60 and R65
(log 16). The value is little-endian (20 R50). -/
def memRead (s : State) (sg : Seg) (ea : BitVec 64) (n : Nat) : Except Stop VecVal :=
  if segmentFaults s sg ea n then .error (.fault (segFault sg))
  else if s.top < (linearAddr s sg ea).toNat + n then .error (.refused .addressWrap)
  else
    match pageFaults s (linearAddr s sg ea).toNat n with
    | f :: fs => .error (.fault (.pf (pickPageFault f fs).1 (BitVec.ofNat 64 (pickPageFault f fs).2)))
    | [] =>
      if alignFaults s (linearAddr s sg ea).toNat n then .error (.fault .ac)
      else if (List.range n).all fun i => (s.dataByte ((linearAddr s sg ea).toNat + i)).isSome then
        .ok (pack 8 (fun i => (s.dataByte ((linearAddr s sg ea).toNat + i)).getD 0) n)
      else .error (.refused .notPlainMemory)

/-! Fetching the bytes of an instruction. -/

/-- The physical address of instruction byte `i` (20 R51, R69; log 9): the offset `rip + i` in the code segment, made
linear and translated. An offset at or past the top is refused. Outside Mode64 the linear address CS base plus offset
is taken modulo 2^32, so a fetch that passes 2^32 goes on at 0 (DESIGN CHOICE, log 26). -/
def State.fetchAddr (s : State) (i : Nat) : Except Refusal Nat :=
  if s.top ≤ s.ip.toNat + i then .error .fetchOutsideMemory
  else if s.mode = .mode64 ∧ canonical s.params.law (BitVec.ofNat 64 (s.ip.toNat + i)) = false then .error .fetchFault
  else
    match translate s.params.translate (linearAddr s .cs (BitVec.ofNat 64 (s.ip.toNat + i))).toNat .fetch s.cpl with
    | .ok pa => .ok pa
    | .error _ => .error .fetchFault

/-- Instruction byte `i` (60 R181). -/
def State.fetchByte (s : State) (i : Nat) : Except Refusal Byte :=
  match s.fetchAddr i with
  | .error r => .error r
  | .ok pa =>
    match s.mem.read pa with
    | some b => .ok b
    | none => .error .fetchOutsideMemory

/-- Up to `n` instruction bytes from byte `i` on, and why there are no more. -/
def State.fetchFrom (s : State) : Nat → Nat → List Byte × Refusal
  | 0, _ => ([], .instructionTooLong)
  | n + 1, i =>
    match s.fetchByte i with
    | .ok b => (b :: (State.fetchFrom s n (i + 1)).1, (State.fetchFrom s n (i + 1)).2)
    | .error r => ([], r)

/-- The architectural limit of an instruction's length in bytes (30 R112). -/
def maxLength : Nat := 15

/-- The bytes at `rip`, as many as one instruction can have and plain memory holds. -/
def State.fetched (s : State) : List Byte := (s.fetchFrom maxLength 0).1

/-- Why there are no more bytes. -/
def State.fetchStop (s : State) : Refusal := (s.fetchFrom maxLength 0).2

/-- The decoder's refusals under the names of the machine's (30 R116). -/
def refusalOf : DecodeRefusal → Refusal
  | .notThisInstruction => .notThisInstruction
  | .addr16 => .addr16
  | .evex32 => .evex32
  | .prefixes => .prefixes
  | .xNoSib => .xNoSib

/-- What the decoder reads at `rip` (40 R140 step 1). -/
def State.decoded (s : State) : Parsed Instr := decode s.mode s.csD s.fetched

/-- The memory with bytes placed where instruction bytes `i`, `i + 1`, ... are fetched. -/
def State.placeFrom (s : State) : Nat → List Byte → Memory → Memory
  | _, [], m => m
  | i, b :: bs, m =>
    match s.fetchAddr i with
    | .ok pa => State.placeFrom s (i + 1) bs (Memory.store pa b m)
    | .error _ => State.placeFrom s (i + 1) bs m

end Sys2Proof.Machine
end

