-- ==== Sys2Proof/Machine/Operands.lean ====
section
/-! DEFINITION. The operand forms: effective address (30 R100 to R106), segment (R107), and the values of SRC1,
SRC2 and the writemask (30 R95). -/

namespace Sys2Proof.Machine

/-- 32-bit addressing: the 32-bit modes (30 R106), and Mode64 with the prefix 67h (R105). -/
def addr32 (s : State) (p : Prefixes) : Bool := s.mode != .mode64 || p.addrSize

/-- A value at the address size: all of it, or its low 32 bits zero-extended (30 R105, R106). -/
def atSize (a32 : Bool) (v : BitVec 64) : BitVec 64 := if a32 then low32 v else v

/-- A base register at the address size. -/
def baseReg (s : State) (a32 : Bool) (r : BitVec 4) : BitVec 64 := atSize a32 (s.readGpr r)

/-- The scaled index, 0 for the number 0100b (30 R101). -/
def scaledIndex (s : State) (a32 : Bool) (i : BitVec 4) (scale : BitVec 2) : BitVec 64 :=
  if i = 4#4 then 0 else atSize a32 (s.readGpr i) <<< scale.toNat

/-- The displacement: a one-byte displacement is scaled by `N`, a four-byte one never (30 R103, R104). -/
def dispValue (n : Nat) : Disp → BitVec 64
  | .none => 0
  | .d8 d => d.signExtend 64 * BitVec.ofNat 64 n
  | .d32 d => d.signExtend 64

/-- The effective address of a memory operand (30 R100, R101, R102, R105, R106). `next` is `rip + ilen`. -/
def effAddr (s : State) (p : Prefixes) (n : Nat) (next : BitVec 64) : MemOperand → BitVec 64
  | .base b d => atSize (addr32 s p) (baseReg s (addr32 s p) b + dispValue n d)
  | .ripDisp d => if s.mode = .mode64 then atSize p.addrSize (next + d.signExtend 64) else d.setWidth 64
  | .sib b i sc d =>
    atSize (addr32 s p) (baseReg s (addr32 s p) b + scaledIndex s (addr32 s p) i sc + dispValue n d)
  | .sibNoBase i sc d => atSize (addr32 s p) (scaledIndex s (addr32 s p) i sc + d.signExtend 64)

/-- The default segment of a base register: SS for registers 4 and 5 (30 R107). -/
def baseSeg (b : BitVec 4) : Seg := if b = 4#4 ∨ b = 5#4 then .ss else .ds

/-- The default segment of a memory operand (30 R102, R107). -/
def defaultSeg : MemOperand → Seg
  | .base b _ => baseSeg b
  | .ripDisp _ => .ds
  | .sib b _ _ _ => baseSeg b
  | .sibNoBase _ _ _ => .ds

/-- The segment of a memory operand: in Mode64 only FS and GS override (30 R107). -/
def operandSeg (s : State) (p : Prefixes) (m : MemOperand) : Seg :=
  match p.seg with
  | none => defaultSeg m
  | some sg => if s.mode = .mode64 ∧ sg ≠ .fs ∧ sg ≠ .gs then defaultSeg m else sg

/-- The effective address of the memory operand of an instruction of the given length. -/
def operandAddr (vl : VecLen) (o : Operands) (s : State) (m : MemOperand) : BitVec 64 :=
  effAddr s o.prefixes vl.bytes (s.rip + BitVec.ofNat 64 o.ilen) m

/-- SRC1 (40 R140 step 4). -/
def readSrc1 (vl : VecLen) (o : Operands) (s : State) : VecVal := low vl (s.readZmm o.src1)

/-- SRC2, a register or the whole memory operand (40 R140 step 4, 20 R53). -/
def readSrc2 (vl : VecLen) (o : Operands) (s : State) : Except Stop VecVal :=
  match o.src2 with
  | .reg r => .ok (low vl (s.readZmm r))
  | .mem m => memRead s (operandSeg s o.prefixes m) (operandAddr vl o s m) vl.bytes

/-- Whether result word `j` is written: no writemask, or mask bit `j` set (40 R134, 30 R90). -/
def maskBit (o : Operands) (s : State) (j : Nat) : Bool := o.mask == 0#3 || (s.readK o.mask).getLsbD j

end Sys2Proof.Machine
end

