-- ==== Sys2Proof/Machine/Vdbpsadbw.lean ====
section
/-! DEFINITION. VDBPSADBW: the shared operation (40 R130 to R136, R140) and the meanings of the three forms
(40 R137, R138, R139). -/

namespace Sys2Proof.Machine

/-- Dword `i` of TMP1: the dword of the same lane of SRC2 that the selector `imm8[2d+1:2d]`, `d = i mod 4`, names
(40 R131). -/
def tmp1Dword (src2 : VecVal) (imm8 : BitVec 8) (i : Nat) : BitVec 32 :=
  select (laneAt src2 (i / 4)) (elem 2 imm8 (i % 4))

/-- TMP1, the shuffled second source (40 R131). -/
def tmp1 (vl : VecLen) (src2 : VecVal) (imm8 : BitVec 8) : VecVal :=
  pack 32 (tmp1Dword src2 imm8) (vl.bits / 32)

/-- Result word `r` of a superblock: stationary dword 0 for `r` = 0, 1 and 1 for `r` = 2, 3, against the sliding
dword at byte offset `r` (40 R133). -/
def sadWord (s t : BitVec 64) (r : Nat) : BitVec 16 :=
  BitVec.ofNat 16 (sad4 (dwordAt s (r / 2)) (t.extractLsb' (8 * r) 32))

/-- TMP_DEST, all result words before masking (40 R133). -/
def tmpDest (vl : VecLen) (src1 t1 : VecVal) : VecVal :=
  pack 16 (fun j => sadWord (qwordAt src1 (j / 4)) (qwordAt t1 (j / 4)) (j % 4)) vl.words

/-- The new destination value: the masked write of the KL result words (40 R134), and zeros in bits MAXVL-1:VL
whatever the mask (40 R136). -/
def newDest (vl : VecLen) (write : Nat → Bool) (zeroing : Bool) (result old : VecVal) : VecVal :=
  pack 16 (fun j => if write j then wordAt result j else if zeroing then 0 else wordAt old j) vl.words

/-- Steps 5 and 6 of 40 R140: the value written to DEST. -/
def resultValue (vl : VecLen) (o : Operands) (s : State) (src2 : VecVal) : VecVal :=
  newDest vl (maskBit o s) o.zeroing (tmpDest vl (readSrc1 vl o s) (tmp1 vl src2 o.imm8)) (s.readZmm o.dest)

/-- Steps 5 to 7 of 40 R140: the state after the instruction, for a second source value. -/
def completed (vl : VecLen) (o : Operands) (s : State) (src2 : VecVal) : State :=
  (s.writeZmm o.dest (resultValue vl o s src2)).advance o.ilen

/-- The events of 40 R140 after decoding, for every form. -/
def execForm (vl : VecLen) (o : Operands) (s : State) : Host.Outcome State Fault Refusal :=
  match gate vl s with
  | some f => raise f
  | none =>
    match readSrc2 vl o s with
    | .error e => e.outcome
    | .ok src2 => .next (completed vl o s src2)

/-- VDBPSADBW xmm1 {k1}{z}, xmm2, xmm3/m128, imm8 (40 R137). -/
def execVdbpsadbw128 (o : Operands) (s : State) : Host.Outcome State Fault Refusal := execForm .v128 o s

/-- VDBPSADBW ymm1 {k1}{z}, ymm2, ymm3/m256, imm8 (40 R138). -/
def execVdbpsadbw256 (o : Operands) (s : State) : Host.Outcome State Fault Refusal := execForm .v256 o s

/-- VDBPSADBW zmm1 {k1}{z}, zmm2, zmm3/m512, imm8 (40 R139). -/
def execVdbpsadbw512 (o : Operands) (s : State) : Host.Outcome State Fault Refusal := execForm .v512 o s

end Sys2Proof.Machine
end

