-- ==== Sys2Proof/Machine/Dispatch.lean ====
section
/-! DEFINITION. exec: one arm per constructor of Instr, each one call of that instruction's meaning. -/

namespace Sys2Proof.Machine

def exec (i : Instr) (s : State) : Host.Outcome State Fault Refusal :=
  match i with
  | .vdbpsadbw128 o => Sys2Proof.Machine.execVdbpsadbw128 o s
  | .vdbpsadbw256 o => Sys2Proof.Machine.execVdbpsadbw256 o s
  | .vdbpsadbw512 o => Sys2Proof.Machine.execVdbpsadbw512 o s

end Sys2Proof.Machine
end

