-- ==== Sys2Proof/Machine/Step.lean ====
section
/-! DEFINITION. One step: fetch and decode at rip, then execute (00 R14, R15; 40 R140). -/

namespace Sys2Proof.Machine

/-- One step of the machine: the next state, an exception, or a refusal (00 R15). -/
def step (s : State) : Host.Outcome State Fault Refusal :=
  match s.decoded with
  | .got i _ => exec i s
  | .ud => raise .ud
  | .refused r => .refused (refusalOf r)
  | .more => .refused s.fetchStop

/-- The state with an instruction, given as bits, stored where `step` fetches its next instruction (log 22). -/
def State.withFetchWord (s : State) (nbits w : Nat) : State :=
  { s with mem := s.placeFrom 0 (tableBytes nbits w) s.mem }

end Sys2Proof.Machine
end

