-- ==== Sys2Proof/Safety.lean ====
section
/-! DEFINITION. What an admitted launch state is (70 R211) and what a run of a program text is (70 R213). -/

namespace Sys2Proof.Safety

open Sys2Proof.Machine

/-- `modeOk` (70 R211). -/
def modeOk (s : State) : Bool :=
  s.mode == .mode64 || ((s.mode == .compat32 || s.mode == .prot32) && s.csD)

/-- `enabled` (70 R211), for a program that uses the form of this vector length, with `xcr0[0]`, which decision D20
puts into it (DESIGN CHOICE, log 27). -/
def enabled (vl : VecLen) (s : State) : Bool :=
  s.osxsave && s.xcr0X87 && s.xcr0Enabled && !s.ts && cpuidOk vl s.cpuid

/-- `noDebug` (70 R211): the single-step flag is clear. No breakpoint can be armed, since 00 R7 leaves the debug
registers out (log 18, log 29). -/
def noDebug (s : State) : Bool := !s.tf

/-- `textPresent` (70 R211): every byte of the text `base .. base + len - 1` can be fetched. -/
def textPresent (base : Addr) (len : Nat) (s : State) : Bool :=
  (List.range len).all fun i =>
    match { s with rip := base }.fetchByte i with
    | .ok _ => true
    | .error _ => false

/-- An admitted launch state of a program text (70 R211, R213). `textStable`, `noInterrupts` and `noFaultRecorded`
hold of every state of the model: nothing else acts, no instruction writes memory, and a fault is an outcome, not a
state (log 13, 17, 18). -/
def launch (vl : VecLen) (base : Addr) (len : Nat) (s : State) : Bool :=
  modeOk s && enabled vl s && textPresent base len s && noDebug s && s.rip == base

/-- How a run stands (70 R213): ended in a final state, ended at a fault or a refusal with the state the
instruction found (60 R185), not yet ended, or gone past the text without ending at its end. -/
inductive RunEnd where
  | final (s : State)
  | faulted (s : State) (f : Fault)
  | refused (s : State) (r : Refusal)
  | running (s : State)
  | outside (s : State)
  deriving DecidableEq, Repr

/-- At most `n` steps over the text `base .. base + len - 1` (70 R213). `base + len` is not reduced: a text that ends
at the very top of the address space, whose last instruction takes rip to 0, ends `outside` and not `final` (DESIGN
CHOICE, log 28). An empty text (`len` = 0), for which no step is taken, ends `final` at once (DESIGN CHOICE, log 30). -/
def run (base len : Nat) : Nat → State → RunEnd
  | 0, s => if s.rip.toNat = base + len then .final s else .running s
  | n + 1, s =>
    if s.rip.toNat = base + len then .final s
    else if base ≤ s.rip.toNat ∧ s.rip.toNat < base + len then
      match step s with
      | .next t => run base len n t
      | .fault f => .faulted s f
      | .refused r => .refused s r
    else .outside s

end Sys2Proof.Safety
end

