-- ==== Sys2Proof/Certificates/Slice0/Obligations.lean ====
section
/-! DEFINITION. The statements for the provers, from the spec's numbered rules. The helpers under
`Sys2Proof.Claims` spell the rules in integers and single bits, apart from the model's own definitions. -/

namespace Sys2Proof.Claims

open Sys2Proof.Machine

/-! Encoding. -/

/-- The segment-override bytes of 30 R111. -/
def isSegPrefix (b : Byte) : Bool := [0x26#8, 0x2E#8, 0x36#8, 0x3E#8, 0x64#8, 0x65#8].contains b

/-- The forbidden legacy prefixes of 30 R115. -/
def isForbidden (b : Byte) : Bool := [0x66#8, 0xF2#8, 0xF3#8, 0xF0#8].contains b

/-- At most one segment override and at most one 67h among the bytes (30 R111). -/
def prefixesOnce (pre : List Byte) : Prop := pre.countP isSegPrefix ≤ 1 ∧ pre.count 0x67#8 ≤ 1

/-- Admitted legacy prefixes: segment overrides and 67h, each at most once (30 R111). -/
def admitted (pre : List Byte) : Prop := (∀ b ∈ pre, isSegPrefix b = true ∨ b = 0x67#8) ∧ prefixesOnce pre

/-- P0, P1 and the opcode byte belong to this opcode: mm = 11b, pp = 01b, 42h (30 R115). -/
def thisOpcode (p0 p1 op : Byte) : Prop :=
  p0.getLsbD 0 = true ∧ p0.getLsbD 1 = true ∧ p1.getLsbD 0 = true ∧ p1.getLsbD 1 = false ∧ op = 0x42#8

/-- The #UD variants in the EVEX prefix (30 R115, first five rows). -/
def reservedVariant (p0 p1 p2 : Byte) : Prop :=
  (p2.getLsbD 6 = true ∧ p2.getLsbD 5 = true) ∨ p2.getLsbD 4 = true ∨ p1.getLsbD 7 = true ∨
    (p2.getLsbD 7 = true ∧ p2.toNat % 8 = 0) ∨ (p0.getLsbD 3 = true ∨ p0.getLsbD 2 = true) ∨ p1.getLsbD 2 = false

/-- Bits 7:6 of P0 are 11b (30 R110). -/
def noRX (p0 : Byte) : Prop := p0.getLsbD 7 = true ∧ p0.getLsbD 6 = true

/-- The only spelling of the extension bits admitted in the 32-bit modes (30 R110). -/
def plain32 (p0 p1 p2 : Byte) : Prop :=
  p0.getLsbD 7 = true ∧ p0.getLsbD 6 = true ∧ p0.getLsbD 5 = true ∧ p0.getLsbD 4 = true ∧ p1.getLsbD 6 = true ∧
    p2.getLsbD 3 = true

/-- Compat32 or Prot32. -/
def is32 (m : Mode) : Prop := m = .compat32 ∨ m = .prot32

/-- The bytes `62 P0 P1 P2 op` and what follows. -/
def evexBytes (p0 p1 p2 op : Byte) (rest : List Byte) : List Byte := 0x62#8 :: p0 :: p1 :: p2 :: op :: rest

/-- The mask of a row of 30 R114, byte by byte. -/
def rowMask : List Byte := [0xFF#8, 0x0F#8, 0x87#8, 0x70#8, 0xFF#8]

/-- The match of a row of 30 R114, byte by byte. -/
def rowMatch : VecLen → List Byte
  | .v128 => [0x62#8, 0x03#8, 0x05#8, 0x00#8, 0x42#8]
  | .v256 => [0x62#8, 0x03#8, 0x05#8, 0x20#8, 0x42#8]
  | .v512 => [0x62#8, 0x03#8, 0x05#8, 0x40#8, 0x42#8]

/-- The constructor of a vector length. -/
def formInstr : VecLen → Operands → Instr
  | .v128, o => .vdbpsadbw128 o
  | .v256, o => .vdbpsadbw256 o
  | .v512, o => .vdbpsadbw512 o

/-- `nsib` of 30 R112: a SIB byte or none. -/
def sibBytes : Src2 → Nat
  | .reg _ => 0
  | .mem (.base _ _) => 0
  | .mem (.ripDisp _) => 0
  | .mem (.sib _ _ _ _) => 1
  | .mem (.sibNoBase _ _ _) => 1

/-- The bytes of a displacement: none, one or four. -/
def dispLength : Disp → Nat
  | .none => 0
  | .d8 _ => 1
  | .d32 _ => 4

/-- `ndisp` of 30 R112. -/
def dispBytes : Src2 → Nat
  | .reg _ => 0
  | .mem (.base _ d) => dispLength d
  | .mem (.ripDisp _) => 4
  | .mem (.sib _ _ _ d) => dispLength d
  | .mem (.sibNoBase _ _ _) => 4

/-! When an instruction executes. -/

/-- `VL/8`: 16, 32 or 64 (20 R58). -/
def operandBytes : VecLen → Nat
  | .v128 => 16
  | .v256 => 32
  | .v512 => 64

/-- KL: 8, 16 or 32 (00 R8). -/
def resultWords : VecLen → Nat
  | .v128 => 8
  | .v256 => 16
  | .v512 => 32

/-- The state conditions of 60 R172 under which a form raises #UD, bit by bit. -/
def udCondition (vl : VecLen) (s : State) : Prop :=
  s.mode = .real ∨ s.mode = .v86 ∨ s.cr4.getLsbD 18 = false ∨
    (s.xcr0.getLsbD 1 = false ∨ s.xcr0.getLsbD 2 = false ∨ s.xcr0.getLsbD 5 = false ∨ s.xcr0.getLsbD 6 = false ∨
      s.xcr0.getLsbD 7 = false) ∨
    s.cpuid.avx512f = false ∨ s.cpuid.avx512bw = false ∨ (s.cpuid.avx512vl = false ∧ vl ≠ .v512)

/-- No condition of #UD and `cr0.TS` = 0: the instruction gets to its operands (60 R180). -/
def ready (vl : VecLen) (s : State) : Prop := ¬ udCondition vl s ∧ s.cr0.getLsbD 3 = false

/-- An outcome with a function applied to its next state. -/
def mapNext (f : State → State) : Host.Outcome State Fault Refusal → Host.Outcome State Fault Refusal
  | .next t => .next (f t)
  | .fault e => .fault e
  | .refused r => .refused r

/-! The data operation, in integers. -/

/-- `|u(byte(x, i)) - u(byte(y, j))|` (00 R10). -/
def byteDiff (x : VecVal) (i : Nat) (y : VecVal) (j : Nat) : Int :=
  |((byteAt x i).toNat : Int) - ((byteAt y j).toNat : Int)|

/-- The byte of SRC2 that byte `b` of TMP1 is a copy of: `16n + 4*u(imm8[2d+1:2d]) + k` for `b = 16n + 4d + k`
(40 R131). -/
def shuffledByte (imm8 : BitVec 8) (b : Nat) : Nat :=
  16 * (b / 16) + 4 * (imm8.toNat / 4 ^ (b % 16 / 4) % 4) + b % 4

/-- The integer of result word `4q + r` (40 R133): bytes `0..3` of SRC1's superblock for `r` = 0, 1 and `4..7` for
`r` = 2, 3, against bytes `r .. r + 3` of TMP1's. -/
def sadOf (src1 src2 : VecVal) (imm8 : BitVec 8) (j : Nat) : Int :=
  let q := j / 4
  let r := j % 4
  let a := 8 * q + (if r < 2 then 0 else 4)
  byteDiff src1 a src2 (shuffledByte imm8 (8 * q + r)) + byteDiff src1 (a + 1) src2 (shuffledByte imm8 (8 * q + r + 1))
    + byteDiff src1 (a + 2) src2 (shuffledByte imm8 (8 * q + r + 2))
    + byteDiff src1 (a + 3) src2 (shuffledByte imm8 (8 * q + r + 3))

/-- The new value of DEST is what 40 R134 and R136 say, for a second source whose bytes are those of `src2`. -/
def destIs (vl : VecLen) (o : Operands) (s : State) (src2 new : VecVal) : Prop :=
  (∀ j < resultWords vl,
    (o.mask = 0 ∨ (s.readK o.mask).getLsbD j = true →
      ((wordAt new j).toNat : Int) = sadOf (s.readZmm o.src1) src2 o.imm8 j) ∧
    (o.mask ≠ 0 → (s.readK o.mask).getLsbD j = false →
      wordAt new j = if o.zeroing then 0#16 else wordAt (s.readZmm o.dest) j)) ∧
  ∀ b, 16 * resultWords vl ≤ b → new.getLsbD b = false

/-- `pc <- rip + ilen`, modulo 2^64 in Mode64 and modulo 2^32 otherwise (10 R29). -/
def ipIs (s : State) (len : Nat) (new : BitVec 64) : Prop :=
  new.toNat = (s.rip.toNat + len) % (if s.mode = .mode64 then 2 ^ 64 else 2 ^ 32)

/-- Nothing but `zmm[dest]` and `rip` differs (10 R44): every other vector register, every opmask register, general
register, flag, control and segment register, every byte of memory and every parameter is as before. -/
def onlyDestAndIp (dest : BitVec 5) (s t : State) : Prop :=
  (∀ r, r ≠ dest → t.readZmm r = s.readZmm r) ∧ (∀ r, t.readK r = s.readK r) ∧ (∀ r, t.readGpr r = s.readGpr r) ∧
    t.rflags = s.rflags ∧ t.mxcsr = s.mxcsr ∧ t.seg = s.seg ∧ t.csL = s.csL ∧ t.csD = s.csD ∧ t.cpl = s.cpl ∧
    t.cr0 = s.cr0 ∧ t.cr4 = s.cr4 ∧ t.xcr0 = s.xcr0 ∧ t.efer = s.efer ∧ t.cpuid = s.cpuid ∧
    (∀ a, t.mem.read a = s.mem.read a) ∧ t.params = s.params

/-- The state an instruction leaves: DEST and rip as the rules give them, all else as before. -/
def leaves (vl : VecLen) (o : Operands) (s : State) (src2 : VecVal) (t : State) : Prop :=
  destIs vl o s src2 (t.readZmm o.dest) ∧ ipIs s o.ilen t.rip ∧ onlyDestAndIp o.dest s t

/-! The memory operand. -/

/-- The linear address of the memory operand (30 R108). -/
def operandLinear (vl : VecLen) (o : Operands) (s : State) (m : MemOperand) : Nat :=
  (linearAddr s (operandSeg s o.prefixes m) (operandAddr vl o s m)).toNat

/-- Bits `63:LAW-1` of the address `a` modulo 2^64 are all equal, as a range of signed numbers (20 R64). -/
def isCanonical (p : Params) (a : Nat) : Prop :=
  -(2 : Int) ^ (p.law - 1) ≤ (BitVec.ofNat 64 a).toInt ∧ (BitVec.ofNat 64 a).toInt < (2 : Int) ^ (p.law - 1)

/-- `SegCheck` denies the access (20 R62; the table of log 6). -/
def checkDenies (s : State) (sg : Seg) (ea n : Nat) : Prop :=
  ∃ d ∈ (s.seg.get sg).deny, d.first ≤ ea ∧ ea ≤ d.last ∧ d.width = n

/-- The segment-level check of the operand fails (60 R174). -/
def segmentBad (vl : VecLen) (o : Operands) (s : State) (m : MemOperand) : Prop :=
  if s.mode = .mode64 then ∃ i < operandBytes vl, ¬ isCanonical s.params (operandLinear vl o s m + i)
  else checkDenies s (operandSeg s o.prefixes m) (operandAddr vl o s m).toNat (operandBytes vl)

/-- The operand runs past the top of the address space (20 R65). -/
def operandWraps (vl : VecLen) (o : Operands) (s : State) (m : MemOperand) : Prop :=
  (if s.mode = .mode64 then 2 ^ 64 else 2 ^ 32) < operandLinear vl o s m + operandBytes vl

/-- `Translate` faults byte `i` of the operand with this code (20 R63). -/
def byteFaults (vl : VecLen) (o : Operands) (s : State) (m : MemOperand) (i : Nat) (code : BitVec 32) : Prop :=
  translate s.params.translate (operandLinear vl o s m + i) .read s.cpl = .error code

/-- The condition of #AC(0) (20 R55). -/
def alignmentBad (vl : VecLen) (o : Operands) (s : State) (m : MemOperand) : Prop :=
  s.params.acCheckVector = true ∧ s.cr0.getLsbD 18 = true ∧ s.rflags.getLsbD 18 = true ∧ s.cpl.toNat = 3 ∧
    operandLinear vl o s m % operandBytes vl ≠ 0

/-- `Translate` maps byte `i` of the operand to this physical address. -/
def byteMapsTo (vl : VecLen) (o : Operands) (s : State) (m : MemOperand) (i pa : Nat) : Prop :=
  translate s.params.translate (operandLinear vl o s m + i) .read s.cpl = .ok pa

/-- `src2` is the second source: the register before the instruction, or the plain bytes of memory at `la`, the byte
at the lowest address first (20 R50, R53). -/
def secondSource (vl : VecLen) (o : Operands) (s : State) (src2 : VecVal) : Prop :=
  match o.src2 with
  | .reg r => src2 = s.readZmm r
  | .mem m => ∀ n < operandBytes vl, ∃ pa, byteMapsTo vl o s m n pa ∧ s.mem.read pa = some (byteAt src2 n)

/-- The memory form of an instruction of this vector length completes when its operand passes the checks and lies in
plain memory; byte `n` of its second source is the byte of memory at `la + n` (20 R50, R53). -/
def memoryFormCompletes (vl : VecLen) (o : Operands) (m : MemOperand) (s : State) (src2 : VecVal) :
    Prop :=
  ready vl s → ¬ segmentBad vl o s m → ¬ operandWraps vl o s m → ¬ alignmentBad vl o s m →
    (∀ n < operandBytes vl, ∃ pa, byteMapsTo vl o s m n pa ∧ s.mem.read pa = some (byteAt src2 n)) →
    ∃ t, exec (formInstr vl o) s = .next t ∧ leaves vl o s src2 t

/-! The effective address, in integers. -/

/-- The displacement as an integer (30 R103, R104). -/
def dispInt (vl : VecLen) : Disp → Int
  | .none => 0
  | .d8 d => d.toInt * operandBytes vl
  | .d32 d => d.toInt

/-- The scaled index (30 R101) for a way of reading registers. -/
def indexInt (gpr : BitVec 4 → Nat) (i : BitVec 4) (scale : BitVec 2) : Int :=
  if i = 4#4 then 0 else gpr i * 2 ^ scale.toNat

/-- The sum of 30 R100 and R101 for a way of reading registers and the address of the next instruction. -/
def addrSum (vl : VecLen) (gpr : BitVec 4 → Nat) (next : Int) : MemOperand → Int
  | .base b d => gpr b + dispInt vl d
  | .ripDisp d => next + d.toInt
  | .sib b i sc d => gpr b + indexInt gpr i sc + dispInt vl d
  | .sibNoBase i sc d => indexInt gpr i sc + d.toInt

/-- The base register of a memory operand, if it has one. -/
def baseOf : MemOperand → Option (BitVec 4)
  | .base b _ => some b
  | .ripDisp _ => none
  | .sib b _ _ _ => some b
  | .sibNoBase _ _ _ => none

/-! The bytes of an instruction. -/

/-- The offset of instruction byte `n` in the code segment, unreduced: `rip + n`, or `eip + n` (10 R28; in Real and
V86 log 31). -/
def fetchOffset (s : State) (n : Nat) : Nat := (if s.mode = .mode64 then s.rip.toNat else s.rip.toNat % 2 ^ 32) + n

/-- The linear address of instruction byte `n`: in the modes other than Mode64 the base of CS is added, modulo 2^32
(log 9, log 26). -/
def fetchLinear (s : State) (n : Nat) : Nat :=
  if s.mode = .mode64 then fetchOffset s n else (s.seg.cs.base.toNat + fetchOffset s n) % 2 ^ 32

/-- Instruction byte `n` lies below the top, at a canonical address in Mode64. -/
def fetchReaches (s : State) (n : Nat) : Prop :=
  fetchOffset s n < (if s.mode = .mode64 then 2 ^ 64 else 2 ^ 32) ∧
    (s.mode = .mode64 → isCanonical s.params (fetchOffset s n))

/-- Instruction byte `n` is this plain byte of memory. -/
def instrByte (s : State) (n : Nat) (b : Byte) : Prop :=
  fetchReaches s n ∧
    ∃ pa, translate s.params.translate (fetchLinear s n) .fetch s.cpl = .ok pa ∧ s.mem.read pa = some b

/-- Instruction byte `n` lies at or past the top, or is no plain memory. -/
def instrOutside (s : State) (n : Nat) : Prop :=
  (if s.mode = .mode64 then 2 ^ 64 else 2 ^ 32) ≤ fetchOffset s n ∨
    fetchReaches s n ∧
      ∃ pa, translate s.params.translate (fetchLinear s n) .fetch s.cpl = .ok pa ∧ s.mem.read pa = none

/-- Instruction byte `n` lies below the top and its address is not canonical or does not translate. -/
def instrFaults (s : State) (n : Nat) : Prop :=
  fetchOffset s n < (if s.mode = .mode64 then 2 ^ 64 else 2 ^ 32) ∧
    (s.mode = .mode64 ∧ ¬ isCanonical s.params (fetchOffset s n) ∨
      fetchReaches s n ∧ ∃ code, translate s.params.translate (fetchLinear s n) .fetch s.cpl = .error code)

/-! Whole-machine conditions. -/

/-- What every step keeps: memory in canonical form, and `rip` below 2^32 outside Mode64 (10 R28; in Real and V86,
where no step gives a next state, log 31). -/
def inv (s : State) : Prop := Memory.wf s.mem ∧ (s.mode ≠ .mode64 → s.rip.toNat < 2 ^ 32)

/-- Two states have the same controls as far as 10 R40 gives a bit a role. -/
def sameControls (s u : State) : Prop :=
  (∀ b ∈ [0, 3, 18], u.cr0.getLsbD b = s.cr0.getLsbD b) ∧ u.cr4.getLsbD 18 = s.cr4.getLsbD 18 ∧
    (∀ b ∈ [1, 2, 5, 6, 7], u.xcr0.getLsbD b = s.xcr0.getLsbD b) ∧ u.efer.getLsbD 10 = s.efer.getLsbD 10 ∧
    (∀ b ∈ [17, 18], u.rflags.getLsbD b = s.rflags.getLsbD b)

/-- A state with the control registers, flags and mxcsr of another. -/
def withControls (u : State) (t : State) : State :=
  { t with cr0 := u.cr0, cr4 := u.cr4, xcr0 := u.xcr0, efer := u.efer, rflags := u.rflags, mxcsr := u.mxcsr }

/-- Operands with another segment override, or none. -/
def withSeg (sg : Option Seg) (o : Operands) : Operands := { o with prefixes := { o.prefixes with seg := sg } }

/-- A state with rip one byte further, with the wrap-around of 10 R29. -/
def oneByteFurther (t : State) : State :=
  { t with rip := BitVec.ofNat 64 ((t.rip.toNat + 1) % (if t.mode = .mode64 then 2 ^ 64 else 2 ^ 32)) }

/-- Operands with another immediate. -/
def withImm (x : BitVec 8) (o : Operands) : Operands := { o with imm8 := x }

end Sys2Proof.Claims

open Sys2Proof Sys2Proof.Machine Sys2Proof.Claims

/-! Encoding and decoding. -/

/-- Three words written out in 30 R126 decode to the instructions they stand for. -/
def Obligations.WorkedEncodingsDecode : Prop :=
  decode .mode64 false [0x62, 0xF3, 0x6D, 0x08, 0x42, 0xCB, 0xE4] =
      .got (.vdbpsadbw128 ⟨⟨none, false⟩, 1, 2, .reg 3, 0, false, 0xE4⟩) [] ∧
  decode .mode64 false [0x62, 0x13, 0x75, 0x22, 0x42, 0x4C, 0xAC, 0xFF, 0xFF] =
      .got (.vdbpsadbw256 ⟨⟨none, false⟩, 9, 17, .mem (.sib 12 13 2 (.d8 0xFF)), 2, false, 0xFF⟩) [] ∧
  decode .mode64 false [0x62, 0x03, 0x15, 0xC7, 0x42, 0xF4, 0xAB] =
      .got (.vdbpsadbw512 ⟨⟨none, false⟩, 30, 29, .reg 28, 7, true, 0xAB⟩) []

/-- Decode and encode agree in Mode64: for every well-formed instruction, whatever bytes follow (30 R80 to R95). -/
def Obligations.DecodeEncodeMode64 : Prop :=
  ∀ (i : Instr) (csD : Bool) (rest : List Byte), i.wf = true → decode .mode64 csD (encode i ++ rest) = .got i rest

/-- Decode and encode agree in the 32-bit modes with a 32-bit code segment, for every well-formed instruction whose
registers can be named there (30 R106, R110). -/
def Obligations.DecodeEncode32BitModes : Prop :=
  ∀ (m : Mode) (i : Instr) (rest : List Byte), is32 m → i.wf = true → i.fits32 = true →
    decode m true (encode i ++ rest) = .got i rest

/-- What the decoder answers is well-formed, comes in a mode that executes it, and in the 32-bit modes names only
the low 8 registers, with a 32-bit code segment and no 67h (30 R110, R113, R116). -/
def Obligations.DecodedIsWellFormed : Prop :=
  ∀ (m : Mode) (csD : Bool) (bytes : List Byte) (i : Instr) (rest : List Byte), decode m csD bytes = .got i rest →
    i.wf = true ∧ (m = .mode64 ∨ is32 m ∧ csD = true ∧ i.fits32 = true)

/-- The length of a decoded instruction is `npfx + 4 + 1 + 1 + nsib + ndisp + 1`, with `npfx` its legacy prefixes and
`nsib` and `ndisp` as its operand has them; a form without prefixes with a register operand or `[base]` has the
shortest length, 7, and the longest, 14, occurs (30 R112). -/
def Obligations.DecodedLength : Prop :=
  (∀ (m : Mode) (csD : Bool) (bytes : List Byte) (i : Instr) (rest : List Byte), decode m csD bytes = .got i rest →
    ∃ pre tail, bytes = pre ++ 0x62#8 :: tail ∧ admitted pre ∧ pre.length ≤ 2 ∧
      i.operands.ilen = pre.length + 4 + 1 + 1 + sibBytes i.operands.src2 + dispBytes i.operands.src2 + 1 ∧
      bytes.length = i.operands.ilen + rest.length ∧ 7 ≤ i.operands.ilen ∧ i.operands.ilen ≤ 14) ∧
  (∀ o : Operands, o.prefixes = ⟨none, false⟩ → (∃ r, o.src2 = .reg r) ∨ (∃ b, o.src2 = .mem (.base b .none)) →
    o.ilen = 7) ∧
  ∃ (bytes : List Byte) (i : Instr), decode .mode64 false bytes = .got i [] ∧ bytes.length = 14

/-- A decoded instruction is a prefix of the bytes, and whatever bytes follow that prefix, the same instruction is
decoded (30 R113). -/
def Obligations.DecodeReadsOwnBytesOnly : Prop :=
  ∀ (m : Mode) (csD : Bool) (bytes : List Byte) (i : Instr) (rest : List Byte), decode m csD bytes = .got i rest →
    ∃ own, bytes = own ++ rest ∧ ∀ rest', decode m csD (own ++ rest') = .got i rest'

/-- The two prefixes may stand in either order (30 R111). -/
def Obligations.PrefixOrderIsFree : Prop :=
  ∀ (m : Mode) (csD : Bool) (sg : Byte) (bytes : List Byte), isSegPrefix sg = true →
    decode m csD (0x67#8 :: sg :: bytes) = decode m csD (sg :: 0x67#8 :: bytes)

/-- Every decoded instruction matches its row of the opcode table after its legacy prefixes, and is not `z` = 1 with
`aaa` = 000b (30 R114). -/
def Obligations.DecodedMatchesTableRow : Prop :=
  ∀ (m : Mode) (csD : Bool) (bytes : List Byte) (i : Instr) (rest : List Byte), decode m csD bytes = .got i rest →
    ∃ pre p0 p1 p2 op tail, bytes = pre ++ evexBytes p0 p1 p2 op tail ∧ admitted pre ∧
      List.zipWith (· &&& ·) [0x62#8, p0, p1, p2, op] rowMask = rowMatch i.vecLen ∧
      ¬ (p2.getLsbD 7 = true ∧ p2.toNat % 8 = 0)

/-- The #UD variants of 30 R115, each row: a reserved variant of the EVEX prefix, a forbidden prefix, a REX prefix in
Mode64, and a form while the state requirements are not met; and a step at such bytes raises #UD. Three things in it
are the model's choice: that #UD comes before the refusals addr16, evex32 and xNoSib (log 10), several or repeated
forbidden prefixes among admitted ones (log 11), and how the bytes are recognised in Real and V86 (log 12). -/
def Obligations.ReservedVariantsRaiseUd : Prop :=
  (∀ (m : Mode) (csD : Bool) (pre : List Byte) (p0 p1 p2 op : Byte) (tail : List Byte),
    (∀ b ∈ pre, isSegPrefix b = true ∨ b = 0x67#8 ∨ isForbidden b = true) → prefixesOnce pre →
    (m = .mode64 ∨ noRX p0) → thisOpcode p0 p1 op →
    ((∃ b ∈ pre, isForbidden b = true) ∨ reservedVariant p0 p1 p2 ∨ m = .real ∨ m = .v86) →
    decode m csD (pre ++ evexBytes p0 p1 p2 op tail) = .ud) ∧
  (∀ (csD : Bool) (pre : List Byte) (rex p0 p1 p2 op : Byte) (tail : List Byte), admitted pre →
    0x40 ≤ rex.toNat → rex.toNat ≤ 0x4F → thisOpcode p0 p1 op →
    decode .mode64 csD (pre ++ rex :: evexBytes p0 p1 p2 op tail) = .ud) ∧
  (∀ (i : Instr) (s : State), udCondition i.vecLen s → exec i s = .fault .ud) ∧
  ∀ s : State, s.decoded = .ud → step s = .fault .ud

/-- `X` = 1 with a memory operand that has no SIB byte is refused by name (30 R117). -/
def Obligations.XWithoutSibRefused : Prop :=
  ∀ (csD : Bool) (pre : List Byte) (p0 p1 p2 op modrm : Byte) (tail : List Byte), admitted pre →
    thisOpcode p0 p1 op → ¬ reservedVariant p0 p1 p2 → p0.getLsbD 6 = false → modrm.toNat < 192 →
    modrm.toNat % 8 ≠ 4 →
    decode .mode64 csD (pre ++ evexBytes p0 p1 p2 op (modrm :: tail)) = .refused .xNoSib

/-- 16-bit addressing is refused by name: 67h in a 32-bit code segment, and any form in a 16-bit code segment
(30 R109). That the reserved variants come first is log 10. -/
def Obligations.SixteenBitAddressingRefused : Prop :=
  ∀ (m : Mode) (csD : Bool) (pre : List Byte) (p0 p1 p2 op : Byte) (tail : List Byte), is32 m → admitted pre →
    noRX p0 → thisOpcode p0 p1 op → ¬ reservedVariant p0 p1 p2 → (csD = false ∨ 0x67#8 ∈ pre) →
    decode m csD (pre ++ evexBytes p0 p1 p2 op tail) = .refused .addr16

/-- The extension bits in the 32-bit modes: 62h and a byte without bits 7:6 = 11b are another instruction, whatever
follows and also where nothing follows (30 R110, R113); any other non-canonical spelling is refused by name. -/
def Obligations.ExtensionBitsIn32BitModes : Prop :=
  ∀ (m : Mode) (pre : List Byte) (p0 p1 p2 op : Byte) (tail : List Byte), is32 m → admitted pre →
    (¬ noRX p0 → ∀ csD, decode m csD (pre ++ 0x62#8 :: p0 :: tail) = .refused .notThisInstruction) ∧
    (noRX p0 → thisOpcode p0 p1 op → ¬ reservedVariant p0 p1 p2 → 0x67#8 ∉ pre → ¬ plain32 p0 p1 p2 →
      decode m true (pre ++ evexBytes p0 p1 p2 op tail) = .refused .evex32)

/-- A second segment override or a second 67h is refused by name (30 R111). That it is so in every mode and whatever
follows, before notThisInstruction and before any #UD, is the model's choice (log 10). -/
def Obligations.RepeatedPrefixesRefused : Prop :=
  ∀ (m : Mode) (csD : Bool) (pre tail : List Byte), (∀ b ∈ pre, isSegPrefix b = true ∨ b = 0x67#8) →
    ¬ prefixesOnce pre → decode m csD (pre ++ tail) = .refused .prefixes

/-- Bytes that are neither a form nor a variant are refused, not faulted: a byte that is not 62h, a prefix or REX, or
62h with another map, pp or opcode byte (30 R116); also after forbidden prefixes and after a REX byte in Mode64, where
the model's choice is that such a prefix raises #UD before this opcode only (log 10, log 11). -/
def Obligations.OtherBytesRefused : Prop :=
  ∀ (m : Mode) (csD : Bool) (pre : List Byte),
    (∀ b ∈ pre, isSegPrefix b = true ∨ b = 0x67#8 ∨ isForbidden b = true) → prefixesOnce pre →
    (∀ (b : Byte) (tail : List Byte), isSegPrefix b = false → b ≠ 0x67#8 → isForbidden b = false → b ≠ 0x62#8 →
      ¬ (m = .mode64 ∧ 0x40 ≤ b.toNat ∧ b.toNat ≤ 0x4F) →
      decode m csD (pre ++ b :: tail) = .refused .notThisInstruction) ∧
    (∀ (p0 p1 p2 op : Byte) (tail : List Byte), ¬ thisOpcode p0 p1 op →
      decode m csD (pre ++ evexBytes p0 p1 p2 op tail) = .refused .notThisInstruction) ∧
    ∀ rex : Byte, m = .mode64 → 0x40 ≤ rex.toNat → rex.toNat ≤ 0x4F →
      (∀ (b : Byte) (tail : List Byte), b ≠ 0x62#8 →
        decode m csD (pre ++ rex :: b :: tail) = .refused .notThisInstruction) ∧
      ∀ (p0 p1 p2 op : Byte) (tail : List Byte), ¬ thisOpcode p0 p1 op →
        decode m csD (pre ++ rex :: evexBytes p0 p1 p2 op tail) = .refused .notThisInstruction

/-! Modes and exceptions. -/

/-- The table of modes (60 R176), for the states no two rows describe (log 1). -/
def Obligations.ModeFollowsControls : Prop :=
  ∀ s : State, let pe := s.cr0.getLsbD 0; let lma := s.efer.getLsbD 10; let vm := s.rflags.getLsbD 17
    (s.mode = .real ↔ pe = false) ∧
    (s.mode = .v86 ↔ pe = true ∧ vm = true) ∧
    (s.mode = .prot32 ↔ pe = true ∧ lma = false ∧ vm = false) ∧
    (vm = false → (s.mode = .mode64 ↔ pe = true ∧ lma = true ∧ s.csL = true)) ∧
    (vm = false → (s.mode = .compat32 ↔ pe = true ∧ lma = true ∧ s.csL = false))

/-- An instruction raises #UD exactly when a state condition of 60 R172 holds, whatever `cr0.TS` and its operands
are. -/
def Obligations.UdExactlyOnStateConditions : Prop :=
  ∀ (i : Instr) (s : State), exec i s = .fault .ud ↔ udCondition i.vecLen s

/-- #NM is raised exactly when no #UD condition holds and `cr0.TS` = 1 (60 R173). -/
def Obligations.NmExactlyOnTaskSwitched : Prop :=
  ∀ (i : Instr) (s : State), exec i s = .fault .nm ↔ ¬ udCondition i.vecLen s ∧ s.cr0.getLsbD 3 = true

/-- #SS(0) and #GP(0) are raised exactly by a memory operand that fails the segment-level check, #SS(0) in SS and
#GP(0) elsewhere (60 R174). Misalignment, the mask and a wrap raise neither. -/
def Obligations.SegmentLevelFaultsExactly : Prop :=
  ∀ (i : Instr) (s : State),
    (exec i s = .fault .ss ↔ ready i.vecLen s ∧ ∃ m, i.operands.src2 = .mem m ∧
      segmentBad i.vecLen i.operands s m ∧ operandSeg s i.operands.prefixes m = .ss) ∧
    (exec i s = .fault .gp ↔ ready i.vecLen s ∧ ∃ m, i.operands.src2 = .mem m ∧
      segmentBad i.vecLen i.operands s m ∧ operandSeg s i.operands.prefixes m ≠ .ss)

/-- When `Translate` faults some byte of an operand that passes the segment check and does not wrap, #PF is raised
for one of the faulting bytes, with its code and linear address; and #PF is raised in no other case (60 R175).
Which byte is a free value (log 7); that an operand that wraps is refused before translation, so that it raises no
#PF, is the model's choice (log 16). -/
def Obligations.PageFaultExactly : Prop :=
  ∀ (i : Instr) (s : State),
    (∀ m n code, ready i.vecLen s → i.operands.src2 = .mem m → ¬ segmentBad i.vecLen i.operands s m →
      ¬ operandWraps i.vecLen i.operands s m → n < operandBytes i.vecLen →
      byteFaults i.vecLen i.operands s m n code → ∃ c a, exec i s = .fault (.pf c a)) ∧
    ∀ c a, exec i s = .fault (.pf c a) → ready i.vecLen s ∧ ∃ m n, i.operands.src2 = .mem m ∧
      ¬ segmentBad i.vecLen i.operands s m ∧ ¬ operandWraps i.vecLen i.operands s m ∧ n < operandBytes i.vecLen ∧
      byteFaults i.vecLen i.operands s m n c ∧ a.toNat = operandLinear i.vecLen i.operands s m + n

/-- #AC(0) is raised exactly when AC_CHECK_VECTOR is true, `cr0.AM` = 1, `rflags.AC` = 1, the level is 3 and the
operand is not aligned to its size, and no earlier fault or wrap stops it; so never in the default configuration
(20 R55, 60 R177). -/
def Obligations.AlignmentCheckExactly : Prop :=
  ∀ (i : Instr) (s : State), exec i s = .fault .ac ↔ ready i.vecLen s ∧ ∃ m, i.operands.src2 = .mem m ∧
    ¬ segmentBad i.vecLen i.operands s m ∧ ¬ operandWraps i.vecLen i.operands s m ∧
    (∀ n < operandBytes i.vecLen, ∀ code, ¬ byteFaults i.vecLen i.operands s m n code) ∧
    alignmentBad i.vecLen i.operands s m

/-- An operand that passes the segment check and runs past the top of the address space is refused by name
(20 R65). -/
def Obligations.WrappingOperandRefused : Prop :=
  ∀ (i : Instr) (s : State) (m : MemOperand), ready i.vecLen s → i.operands.src2 = .mem m →
    ¬ segmentBad i.vecLen i.operands s m → operandWraps i.vecLen i.operands s m →
    exec i s = .refused .addressWrap

/-- An operand that no check stops and that has a byte outside plain memory is refused by name (20 R60). -/
def Obligations.NonPlainOperandRefused : Prop :=
  ∀ (i : Instr) (s : State) (m : MemOperand) (n pa : Nat), ready i.vecLen s → i.operands.src2 = .mem m →
    ¬ segmentBad i.vecLen i.operands s m → ¬ operandWraps i.vecLen i.operands s m →
    (∀ k < operandBytes i.vecLen, ∀ code, ¬ byteFaults i.vecLen i.operands s m k code) →
    ¬ alignmentBad i.vecLen i.operands s m → n < operandBytes i.vecLen →
    byteMapsTo i.vecLen i.operands s m n pa → s.mem.read pa = none → exec i s = .refused .notPlainMemory

/-- A fault does not depend on the vector registers, the opmask registers, the immediate, mxcsr or the bytes of
memory, nor on the general registers and rip but through the address of the memory operand (60 R179). -/
def Obligations.FaultsIndependentOfData : Prop :=
  ∀ (vl : VecLen) (o : Operands) (s : State) (f : Fault) (zmm : Vector VecVal 32) (k : Vector (BitVec 64) 8)
    (gpr : Vector (BitVec 64) 16) (rip : BitVec 64) (mxcsr : BitVec 32) (x : BitVec 8) (mem : Memory),
    let u := { s with zmm := zmm, k := k, gpr := gpr, rip := rip, mxcsr := mxcsr, mem := mem }
    (∀ m, o.src2 = .mem m → operandAddr vl o u m = operandAddr vl o s m) → exec (formInstr vl o) s = .fault f →
    exec (formInstr vl (withImm x o)) u = .fault f

/-- The vector number and error code of each exception (60 R171). -/
def Obligations.ExceptionVectorsAndCodes : Prop :=
  ∀ (code : BitVec 32) (addr : BitVec 64),
    (Fault.ud.vector = 6 ∧ Fault.ud.errorCode = none) ∧ (Fault.nm.vector = 7 ∧ Fault.nm.errorCode = none) ∧
    (Fault.ss.vector = 12 ∧ Fault.ss.errorCode = some 0) ∧ (Fault.gp.vector = 13 ∧ Fault.gp.errorCode = some 0) ∧
    ((Fault.pf code addr).vector = 14 ∧ (Fault.pf code addr).errorCode = some code) ∧
    (Fault.ac.vector = 17 ∧ Fault.ac.errorCode = some 0)

/-! The result of an instruction. -/

/-- The register form of each of the three instructions completes, for every register, mask, masking kind and
immediate: DEST gets the masked sums and zeros above VL, rip advances, nothing else changes
(40 R131, R133, R134, R136). -/
def Obligations.RegisterFormsComplete : Prop :=
  ∀ (o : Operands) (r : BitVec 5) (s : State), o.src2 = .reg r →
    (ready .v128 s → ∃ t, exec (.vdbpsadbw128 o) s = .next t ∧ leaves .v128 o s (s.readZmm r) t) ∧
    (ready .v256 s → ∃ t, exec (.vdbpsadbw256 o) s = .next t ∧ leaves .v256 o s (s.readZmm r) t) ∧
    (ready .v512 s → ∃ t, exec (.vdbpsadbw512 o) s = .next t ∧ leaves .v512 o s (s.readZmm r) t)

/-- The memory form of each of the three instructions (vdbpsadbw128, vdbpsadbw256, vdbpsadbw512) completes when its
operand passes the checks and lies in plain memory (20 R50, R53; 40 R131 to R136). -/
def Obligations.MemoryFormsComplete : Prop :=
  ∀ (o : Operands) (m : MemOperand) (s : State) (src2 : VecVal), o.src2 = .mem m →
    memoryFormCompletes .v128 o m s src2 ∧ memoryFormCompletes .v256 o m s src2 ∧
    memoryFormCompletes .v512 o m s src2

/-- The new value of DEST, for every instruction and every form, wherever it completes: the words of 40 R133 under
the masked write of R134 with the upper zeroing of R136, all from the values before the instruction (R141). -/
def Obligations.DestinationFollowsRules : Prop :=
  ∀ (vl : VecLen) (o : Operands) (s t : State), exec (formInstr vl o) s = .next t →
    ∃ src2, secondSource vl o s src2 ∧ destIs vl o s src2 (t.readZmm o.dest)

/-- Apart from `zmm[DEST]` and `rip`, an execution without exception changes nothing (10 R44), for every instruction
and every form. -/
def Obligations.OnlyDestinationAndIpChange : Prop :=
  ∀ (i : Instr) (s t : State), exec i s = .next t → onlyDestAndIp i.operands.dest s t

/-- Every instruction that completes advances rip by its length, modulo 2^64 in Mode64 and 2^32 in the other modes
(10 R29). -/
def Obligations.IpAdvancesByLength : Prop :=
  ∀ (i : Instr) (s t : State), exec i s = .next t → ipIs s i.operands.ilen t.rip

/-- Bits VL and above of the destination are zero after every completed instruction, under every mask (40 R136). -/
def Obligations.UpperBitsZeroed : Prop :=
  ∀ (i : Instr) (s t : State) (b : Nat), exec i s = .next t → 16 * resultWords i.vecLen ≤ b →
    (t.readZmm i.operands.dest).getLsbD b = false

/-- A merging-masked instruction whose mask bits KL-1:0 are all 0 keeps the low VL bits of the destination and zeroes
the rest; zeroing-masked, it leaves 0; with mask bits all 1 it leaves what it leaves without a writemask; and where
it does not merge, the old destination has no influence, unless it is a source (40 R149 a, b, c, f). -/
def Obligations.MaskingCornerCases : Prop :=
  (∀ (i : Instr) (s t : State), exec i s = .next t → i.operands.mask ≠ 0 →
    (∀ j < resultWords i.vecLen, (s.readK i.operands.mask).getLsbD j = false) →
    (i.operands.zeroing = true → t.readZmm i.operands.dest = 0) ∧
    (i.operands.zeroing = false → ∀ b, (t.readZmm i.operands.dest).getLsbD b =
      (decide (b < 16 * resultWords i.vecLen) && (s.readZmm i.operands.dest).getLsbD b))) ∧
  (∀ (vl : VecLen) (o : Operands) (s : State), o.mask ≠ 0 →
    (∀ j < resultWords vl, (s.readK o.mask).getLsbD j = true) →
    exec (formInstr vl o) s = exec (formInstr vl { o with mask := 0, zeroing := false }) s) ∧
  (∀ (i : Instr) (s : State) (v : VecVal), (i.operands.mask = 0 ∨ i.operands.zeroing = true) →
    i.operands.src1 ≠ i.operands.dest → i.operands.src2 ≠ .reg i.operands.dest →
    exec i (s.writeZmm i.operands.dest v) = exec i s)

/-- Only bits KL-1:0 of the opmask register that a non-zero `aaa` selects are read, and no opmask register is
written (10 R25). -/
def Obligations.OpmaskBitsAboveKlUnread : Prop :=
  ∀ (i : Instr) (s : State) (k : Vector (BitVec 64) 8),
    (i.operands.mask ≠ 0 → ∀ j < resultWords i.vecLen,
      ({ s with k := k }.readK i.operands.mask).getLsbD j = (s.readK i.operands.mask).getLsbD j) →
    exec i { s with k := k } = mapNext (fun t => { t with k := k }) (exec i s) ∧
    ∀ t, exec i s = .next t → t.k = s.k

/-- The instruction neither reads nor writes mxcsr: with any other value there, it does the same and leaves that
value (10 R32). -/
def Obligations.MxcsrNeitherReadNorWritten : Prop :=
  ∀ (i : Instr) (s : State) (v : BitVec 32),
    exec i { s with mxcsr := v } = mapNext (fun t => { t with mxcsr := v }) (exec i s)

/-- The instruction writes no bit of rflags, and reads none but VM and AC; of the control registers it reads only the
bits 10 R40 gives a role (EM has none) and writes none. -/
def Obligations.ControlsOnlyGate : Prop :=
  ∀ (i : Instr) (s u : State), sameControls s u →
    exec i (withControls u s) = mapNext (withControls u) (exec i s)

/-- A register form executes identically at every privilege level (60 R195). -/
def Obligations.RegisterFormsIgnorePrivilege : Prop :=
  ∀ (i : Instr) (r : BitVec 5) (s : State) (c : BitVec 2), i.operands.src2 = .reg r →
    exec i { s with cpl := c } = mapNext (fun t => { t with cpl := c }) (exec i s)

/-- A segment override has no effect on a register form but for its own byte in the length: any two overrides do the
same, and without one the outcome is the same but for rip, which advances one byte less (30 R111). -/
def Obligations.SegmentOverrideIdleOnRegisters : Prop :=
  ∀ (vl : VecLen) (o : Operands) (r : BitVec 5) (s : State) (sg sg' : Seg), o.src2 = .reg r →
    exec (formInstr vl (withSeg (some sg) o)) s = exec (formInstr vl (withSeg (some sg') o)) s ∧
    exec (formInstr vl (withSeg (some sg) o)) s =
      mapNext oneByteFurther (exec (formInstr vl (withSeg none o)) s)

/-! The data operation. -/

/-- Byte `16n + 4d + k` of TMP1 is byte `16n + 4*u(imm8[2d+1:2d]) + k` of SRC2, for every vector length (40 R131). -/
def Obligations.ShuffleCopiesSelectedBytes : Prop :=
  ∀ (vl : VecLen) (src2 : VecVal) (imm8 : BitVec 8) (b : Nat), b < operandBytes vl →
    byteAt (tmp1 vl src2 imm8) b = byteAt src2 (shuffledByte imm8 b)

/-- A sum of absolute differences is at most 1020, reaches it exactly when each of the four byte pairs is
{00h, FFh}, and every word an instruction computes and writes is at most 1020 (40 R142). -/
def Obligations.ResultRange : Prop :=
  (∀ a b : BitVec 32, sad4 a b ≤ 1020 ∧ (sad4 a b = 1020 ↔
    ∀ k < 4, (byteAt a k = 0#8 ∧ byteAt b k = 0xFF#8) ∨ (byteAt a k = 0xFF#8 ∧ byteAt b k = 0#8))) ∧
  ∀ (i : Instr) (s t : State) (j : Nat), exec i s = .next t → j < resultWords i.vecLen →
    (i.operands.mask = 0 ∨ (s.readK i.operands.mask).getLsbD j = true) →
    (wordAt (t.readZmm i.operands.dest) j).toNat ≤ 1020

/-- The input footprint of result word `j` (40 R145): four bytes of SRC1 and four of TMP1, so that byte 7 of a
superblock of TMP1 enters no result (R144). -/
def Obligations.ResultWordFootprint : Prop :=
  ∀ (vl : VecLen) (a a' t t' : VecVal) (j : Nat), j < resultWords vl →
    (∀ k < 4, byteAt a (8 * (j / 4) + 4 * (j % 4 / 2) + k) = byteAt a' (8 * (j / 4) + 4 * (j % 4 / 2) + k)) →
    (∀ k < 4, byteAt t (8 * (j / 4) + j % 4 + k) = byteAt t' (8 * (j / 4) + j % 4 + k)) →
    wordAt (tmpDest vl a t) j = wordAt (tmpDest vl a' t') j

/-- Lanes are independent: the result words of lane `n` depend only on lane `n` of both sources (40 R138, R139). -/
def Obligations.LanesIndependent : Prop :=
  ∀ (vl : VecLen) (a a' b b' : VecVal) (imm8 : BitVec 8) (n : Nat), 16 * n < operandBytes vl →
    laneAt a n = laneAt a' n → laneAt b n = laneAt b' n →
    laneAt (tmpDest vl a (tmp1 vl b imm8)) n = laneAt (tmpDest vl a' (tmp1 vl b' imm8)) n

/-- The notable immediates (40 R148): E4h is the identity, 00h and FFh copy dword 0 and 3 of each lane, 4Eh swaps the
qwords, 1Bh reverses the dwords; where TMP1 equals SRC1 in superblock q, word 4q is 0, and the other words of the
superblock are not 0 in general. -/
def Obligations.NotableImmediates : Prop :=
  ∀ (vl : VecLen) (v : VecVal),
    (∀ b < 8 * operandBytes vl, (tmp1 vl v 0xE4).getLsbD b = v.getLsbD b) ∧
    (∀ n d, 16 * n < operandBytes vl → d < 4 →
      dwordAt (tmp1 vl v 0x00) (4 * n + d) = dwordAt v (4 * n) ∧
      dwordAt (tmp1 vl v 0xFF) (4 * n + d) = dwordAt v (4 * n + 3) ∧
      dwordAt (tmp1 vl v 0x1B) (4 * n + d) = dwordAt v (4 * n + (3 - d))) ∧
    (∀ n, 16 * n < operandBytes vl → qwordAt (tmp1 vl v 0x4E) (2 * n) = qwordAt v (2 * n + 1) ∧
      qwordAt (tmp1 vl v 0x4E) (2 * n + 1) = qwordAt v (2 * n)) ∧
    (∀ t q, 4 * q < resultWords vl → qwordAt t q = qwordAt v q → wordAt (tmpDest vl v t) (4 * q) = 0) ∧
    ∃ w : VecVal, ∀ r, 1 ≤ r → r ≤ 3 → wordAt (tmpDest vl w (tmp1 vl w 0xE4)) r ≠ 0

/-! Addresses. -/

/-- The effective address in Mode64 with 64-bit addressing, every form of 30 R100 and R101, modulo 2^64; a one-byte
displacement is scaled by VL/8 (R104), RIP-relative is from the next instruction (R102). -/
def Obligations.EffectiveAddress64 : Prop :=
  ∀ (vl : VecLen) (o : Operands) (s : State) (m : MemOperand), s.mode = .mode64 → o.prefixes.addrSize = false →
    ((operandAddr vl o s m).toNat : Int) =
      addrSum vl (fun r => (s.readGpr r).toNat) (s.rip.toNat + o.ilen) m % 2 ^ 64

/-- The effective address with 32-bit addressing: registers read as their low 32 bits and the sum modulo 2^32; in
Mode64 with 67h the RIP-relative form is the low 32 bits of the 64-bit sum (30 R105); in Compat32 and Prot32 with a
32-bit code segment and no 67h that form is the absolute disp32 (R106). -/
def Obligations.EffectiveAddress32 : Prop :=
  ∀ (vl : VecLen) (o : Operands) (s : State) (m : MemOperand),
    (s.mode = .mode64 → o.prefixes.addrSize = true →
      ((operandAddr vl o s m).toNat : Int) =
        addrSum vl (fun r => (s.readGpr r).toNat % 2 ^ 32) (s.rip.toNat + o.ilen) m % 2 ^ 32) ∧
    (is32 s.mode → s.csD = true → o.prefixes.addrSize = false →
      ((operandAddr vl o s m).toNat : Int) = addrSum vl (fun r => (s.readGpr r).toNat % 2 ^ 32) 0 m % 2 ^ 32)

/-- The effective address of terms no bytes give: in Real and V86, and in a 32-bit mode with 67h or a 16-bit code
segment, where 30 R109 refuses the bytes. The model's choice (log 23) is the 32-bit addressing of R106. -/
def Obligations.EffectiveAddressOfOtherTerms : Prop :=
  ∀ (vl : VecLen) (o : Operands) (s : State) (m : MemOperand),
    (s.mode = .real ∨ s.mode = .v86 ∨ is32 s.mode ∧ (o.prefixes.addrSize = true ∨ s.csD = false)) →
    ((operandAddr vl o s m).toNat : Int) = addrSum vl (fun r => (s.readGpr r).toNat % 2 ^ 32) 0 m % 2 ^ 32

/-- The segment of the memory operand (30 R107): SS for base register 4 or 5, else DS; an override replaces it,
in Mode64 only FS and GS; and the six override bytes. -/
def Obligations.OperandSegment : Prop :=
  ([0x26#8, 0x2E#8, 0x36#8, 0x3E#8, 0x64#8, 0x65#8].map segOfByte =
    [some .es, some .cs, some .ss, some .ds, some .fs, some .gs]) ∧
  ∀ (s : State) (p : Prefixes) (m : MemOperand),
    (p.seg = none → operandSeg s p m = if baseOf m = some 4 ∨ baseOf m = some 5 then .ss else .ds) ∧
    (∀ sg, p.seg = some sg → s.mode ≠ .mode64 ∨ sg = .fs ∨ sg = .gs → operandSeg s p m = sg) ∧
    ∀ sg, p.seg = some sg → s.mode = .mode64 → sg ≠ .fs → sg ≠ .gs →
      operandSeg s p m = operandSeg s { p with seg := none } m

/-- The linear address (20 R62): base 0 but for FS and GS and modulo 2^64 in Mode64, the segment base and modulo 2^32
otherwise. -/
def Obligations.LinearAddressFormed : Prop :=
  ∀ (s : State) (sg : Seg) (ea : BitVec 64),
    (linearAddr s sg ea).toNat =
      if s.mode = .mode64 then ((if sg = .fs ∨ sg = .gs then (s.seg.get sg).base.toNat else 0) + ea.toNat) % 2 ^ 64
      else ((s.seg.get sg).base.toNat + ea.toNat) % 2 ^ 32

/-- An address is canonical exactly when, read as a signed number, it fits in LAW bits, for LAW 48 and 57
(20 R64). -/
def Obligations.CanonicalAsSignedRange : Prop :=
  ∀ (p : Params) (a : Nat), canonical p.law (BitVec.ofNat 64 a) = true ↔ isCanonical p a

/-! Steps. -/

/-- A step at bytes that decode to an instruction is exec of that instruction; nothing is added around it. -/
def Obligations.StepRunsDecodedInstruction : Prop :=
  ∀ (s : State) (i : Instr) (rest : List Byte), decode s.mode s.csD s.fetched = .got i rest → step s = exec i s

/-- A step at bytes the decoder refuses is refused under the same name, each of the five (30 R116). Where the bytes
run out before the decoder has what it needs, the step is refused for the first byte that cannot be fetched:
fetchOutsideMemory where it is past the top or no plain memory, fetchFault where its address is not canonical or does
not translate; and instructionTooLong where 15 bytes were fetched (60 R181; the names and the cases are log 9 and
log 26, eip in Real and V86 is log 31). -/
def Obligations.StepRefusesUndecodedBytes : Prop :=
  ∀ s : State,
    (decode s.mode s.csD s.fetched = .refused .notThisInstruction → step s = .refused .notThisInstruction) ∧
    (decode s.mode s.csD s.fetched = .refused .addr16 → step s = .refused .addr16) ∧
    (decode s.mode s.csD s.fetched = .refused .evex32 → step s = .refused .evex32) ∧
    (decode s.mode s.csD s.fetched = .refused .prefixes → step s = .refused .prefixes) ∧
    (decode s.mode s.csD s.fetched = .refused .xNoSib → step s = .refused .xNoSib) ∧
    (decode s.mode s.csD s.fetched = .more →
      (∀ n < 15, (∀ j < n, ∃ b, instrByte s j b) →
        (instrOutside s n → step s = .refused .fetchOutsideMemory) ∧
        (instrFaults s n → step s = .refused .fetchFault)) ∧
      ((∀ j < 15, ∃ b, instrByte s j b) → step s = .refused .instructionTooLong))

/-- Instruction byte `n` is the plain byte of memory at `rip + n` in Mode64, and at CS base plus `eip + n` modulo 2^32
in the other modes, where the offset is below the top, the address canonical in Mode64, and no row of Translate covers
it; where Translate answers, it is the byte at the translated address; and otherwise the fetch is refused (20 R51,
R69; 60 R181). The base of CS, the use of Translate and the names of the refusals are log 9, the wrap modulo 2^32 is
log 26, eip in Real and V86 log 31. -/
def Obligations.FetchReadsMemoryAtIp : Prop :=
  ∀ (s : State) (n : Nat),
    (fetchReaches s n → (∀ e ∈ s.params.translate, ¬ (e.first ≤ fetchLinear s n ∧ fetchLinear s n ≤ e.last)) →
      (∀ b, s.mem.read (fetchLinear s n) = some b → s.fetchByte n = .ok b) ∧
      (s.mem.read (fetchLinear s n) = none → s.fetchByte n = .error .fetchOutsideMemory)) ∧
    (∀ b, instrByte s n b → s.fetchByte n = .ok b) ∧
    (instrOutside s n → s.fetchByte n = .error .fetchOutsideMemory) ∧
    (instrFaults s n → s.fetchByte n = .error .fetchFault)

/-- From memory to execution: when the bytes of a well-formed instruction stand where step fetches, in Mode64 or, for
an instruction that can be named there, in a 32-bit code segment of a 32-bit mode, the step executes exactly that
instruction (30 R113, 40 R140). -/
def Obligations.PlacedInstructionRuns : Prop :=
  ∀ (s : State) (i : Instr), i.wf = true →
    (s.mode = .mode64 ∨ is32 s.mode ∧ s.csD = true ∧ i.fits32 = true) →
    (∀ n b, (encode i)[n]? = some b → s.fetchByte n = .ok b) → step s = exec i s

/-- Every step keeps the invariant: memory in canonical form, and rip below 2^32 outside Mode64 (10 R28). -/
def Obligations.StepKeepsInvariant : Prop :=
  ∀ s t : State, inv s → step s = .next t → inv t

/-- The invariant holds in the start state. -/
def Obligations.ResetMeetsInvariant : Prop := inv State.reset

/-- Whole machine: a step to a next state changes one vector register at most and rip, which advances by 7 to 14;
the operating mode and every other piece of state stay (10 R44, 30 R112). -/
def Obligations.StepChangesOneVectorRegister : Prop :=
  ∀ s t : State, step s = .next t →
    ∃ (dest : BitVec 5) (len : Nat), onlyDestAndIp dest s t ∧ 7 ≤ len ∧ len ≤ 14 ∧ ipIs s len t.rip ∧ t.mode = s.mode

/-- The launch premises `modeOk`, `enabled`, `textPresent` and `noDebug` are kept by every step, and where `enabled`
holds for a form and the mode is good, no instruction of it raises #UD or #NM (70 R211; that `enabled` asks xcr0 bit 0
is log 27, the place of the single-step flag log 29). -/
def Obligations.LaunchPremisesKept : Prop :=
  (∀ (vl : VecLen) (base : Addr) (len : Nat) (s t : State), step s = .next t →
    (Safety.modeOk s = true → Safety.modeOk t = true) ∧ (Safety.enabled vl s = true → Safety.enabled vl t = true) ∧
    (Safety.textPresent base len s = true → Safety.textPresent base len t = true) ∧
    (Safety.noDebug s = true → Safety.noDebug t = true)) ∧
  ∀ (i : Instr) (s : State), Safety.modeOk s = true → Safety.enabled i.vecLen s = true →
    exec i s ≠ .fault .ud ∧ exec i s ≠ .fault .nm

/-- A state is admitted as a launch state exactly when it meets each premise of 70 R211 that a state of the model can
fail: `modeOk`, `enabled`, `textPresent` and the single-step half of `noDebug` (bit 8 of rflags is log 29, xcr0 bit 0
in `enabled` is log 27), and begins at the base of the text (R213). The other premises hold of every state of the
model and are not asked: `noFaultRecorded` (log 13), `textStable` (log 17), `noInterrupts` and that no breakpoint is
armed (log 18). -/
def Obligations.LaunchAsksPremisesAStateCanFail : Prop :=
  ∀ (vl : VecLen) (base : Addr) (len : Nat) (s : State), Safety.launch vl base len s = true ↔
    (s.mode = .mode64 ∨ is32 s.mode ∧ s.csD = true) ∧ ready vl s ∧ s.xcr0.getLsbD 0 = true ∧
    (∀ n < len, ∃ b, instrByte { s with rip := base } n b) ∧ s.rflags.getLsbD 8 = false ∧ s.rip = base

/-- The start state meets `modeOk`, `noDebug` and `enabled` for every form, in Mode64 (70 R211; the model's choice,
log 2); `State.hardReset`, in the real-address mode a real processor's reset leaves (10 R45; its other values are
log 32), raises #UD for every form. -/
def Obligations.ResetIsEnabledLaunchState : Prop :=
  State.reset.mode = .mode64 ∧ (∀ vl, Safety.enabled vl State.reset = true) ∧ Safety.noDebug State.reset = true ∧
    ∀ i : Instr, exec i State.hardReset = .fault .ud
end

