-- ==== Sys2Proof/Laws/Decode.lean ====
section
/-! SUPPORT. Reading parts of an encoding: what each reader consumed when it answered, and that it reads the same
whatever follows. -/

namespace Sys2Proof

@[simp] theorem Parsed.bind_got {α β : Type} (a : α) (rest : List Byte) (f : α → List Byte → Parsed β) :
    (Parsed.got a rest).bind f = f a rest := rfl

@[simp] theorem Parsed.bind_ud {α β : Type} (f : α → List Byte → Parsed β) : (Parsed.ud : Parsed α).bind f = .ud := rfl

@[simp] theorem Parsed.bind_refused {α β : Type} (r : DecodeRefusal) (f : α → List Byte → Parsed β) :
    (Parsed.refused r : Parsed α).bind f = .refused r := rfl

@[simp] theorem Parsed.bind_more {α β : Type} (f : α → List Byte → Parsed β) :
    (Parsed.more : Parsed α).bind f = .more := rfl

/-- A bind that gives a value read its first part and went on from there. -/
theorem Parsed.bind_eq_got {α β : Type} {p : Parsed α} {f : α → List Byte → Parsed β} {b : β} {rest : List Byte}
    (h : p.bind f = .got b rest) : ∃ a rest', p = .got a rest' ∧ f a rest' = .got b rest := by
  cases p with
  | got a rest' => exact ⟨a, rest', rfl, h⟩
  | ud => cases h
  | refused r => cases h
  | more => cases h

@[simp] theorem readByte_cons (b : Byte) (rest : List Byte) : readByte (b :: rest) = .got b rest := rfl

/-- A displacement's four bytes read back to it (30 R103). -/
@[simp] theorem readDisp32_encode (d : BitVec 32) (rest : List Byte) :
    readDisp32 (encodeDisp32 d ++ rest) = .got d rest := by
  have h : (field d 24 8 ++ field d 16 8 ++ field d 8 8 ++ field d 0 8 : BitVec 32) = d := by
    apply BitVec.eq_of_toNat_eq
    simp only [field, BitVec.toNat_append, BitVec.extractLsb'_toNat, Nat.shiftRight_eq_div_pow]
    have := d.isLt
    simp only [Nat.shiftLeft_eq, Nat.pow_zero, Nat.div_one] at *
    rw [← Nat.shiftLeft_eq, ← Nat.shiftLeft_eq, ← Nat.shiftLeft_eq,
      ← Nat.shiftLeft_add_eq_or_of_lt (by omega), ← Nat.shiftLeft_add_eq_or_of_lt (by omega),
      ← Nat.shiftLeft_add_eq_or_of_lt (by omega)]
    simp only [Nat.shiftLeft_eq]
    omega
  simp [readDisp32, encodeDisp32, h]

/-- A displacement reads back under its own `mod` (30 R100, R101). -/
@[simp] theorem readDisp_encode (d : Disp) (rest : List Byte) : readDisp d.mod (d.bytes ++ rest) = .got d rest := by
  cases d with
  | none => rfl
  | d8 d => rfl
  | d32 d => simp [readDisp, Disp.mod, Disp.bytes]

/-- A displacement has as many bytes as its size (30 R112). -/
@[simp] theorem Disp.length_bytes (d : Disp) : d.bytes.length = d.size := by cases d <;> rfl

@[simp] theorem length_encodeDisp32 (d : BitVec 32) : (encodeDisp32 d).length = 4 := rfl

/-- The prefix bytes are as many as the count says (30 R112). -/
@[simp] theorem Prefixes.length_encode (p : Prefixes) : (encodePrefixes p).length = p.count := by
  obtain ⟨_ | sg, _ | _⟩ := p <;> simp [encodePrefixes, Prefixes.count]

/-- What reading one byte consumed. -/
theorem readByte_eq_got {bytes rest : List Byte} {b : Byte} (h : readByte bytes = .got b rest) : bytes = b :: rest := by
  cases bytes with
  | nil => cases h
  | cons c l => cases h; rfl

/-- What reading four bytes consumed. -/
theorem readDisp32_eq_got {bytes rest : List Byte} {d : BitVec 32} (h : readDisp32 bytes = .got d rest) :
    ∃ own, bytes = own ++ rest ∧ own.length = 4 ∧ ∀ rest', readDisp32 (own ++ rest') = .got d rest' := by
  unfold readDisp32 at h
  split at h
  · rename_i a b c e r
    cases h
    exact ⟨[a, b, c, e], rfl, rfl, fun _ => rfl⟩
  · cases h

/-- What reading a displacement consumed (30 R100). -/
theorem readDisp_eq_got {mod : BitVec 2} {bytes rest : List Byte} {d : Disp} (h : readDisp mod bytes = .got d rest) :
    ∃ own, bytes = own ++ rest ∧ own.length = d.size ∧ (d = .none ↔ mod = 0#2) ∧
      ∀ rest', readDisp mod (own ++ rest') = .got d rest' := by
  unfold readDisp at h
  split at h
  · rename_i hm
    cases h
    exact ⟨[], rfl, rfl, by simp [hm], fun _ => by simp [readDisp, hm]⟩
  · rename_i hm
    split at h
    · rename_i hm1
      obtain ⟨b, r, h1, h2⟩ := Parsed.bind_eq_got h
      cases h2
      exact ⟨[b], readByte_eq_got h1, rfl, by simp [hm], fun _ => by simp [readDisp, hm1]⟩
    · rename_i hm1
      obtain ⟨e, r, h1, h2⟩ := Parsed.bind_eq_got h
      cases h2
      obtain ⟨own, a1, a2, a3⟩ := readDisp32_eq_got h1
      exact ⟨own, a1, a2, by simp [hm], fun _ => by simp [readDisp, hm, hm1, a3]⟩

/-- The low bits of a register number put together are its low bits. -/
theorem low3Is_regNum4 (ext : Bool) (low v : BitVec 3) : low3Is (regNum4 ext low) v = (low == v) := by
  revert ext low v
  decide

/-- What reading operand 3 consumed, and that it is one of the forms of the tables (30 R92, R100, R101); its
registers are the low 8 where no extension bit is used (30 R110). -/
theorem readSrc2Field_eq_got {p0 modrm : Byte} {bytes rest : List Byte} {x : Src2}
    (h : readSrc2Field p0 modrm bytes = .got x rest) :
    ∃ own, bytes = own ++ rest ∧ own.length = x.nsib + x.ndisp ∧ x.wf = true ∧
      (p0.getLsbD 6 = true → p0.getLsbD 5 = true → x.fits32 = true) ∧
      ∀ rest', readSrc2Field p0 modrm (own ++ rest') = .got x rest' := by
  unfold readSrc2Field at h
  dsimp only at h
  split at h
  · rename_i hm
    cases h
    refine ⟨[], rfl, rfl, rfl, ?_, fun _ => by simp [readSrc2Field, hm]⟩
    intro a b
    rw [a, b, Src2.fits32]
    generalize field modrm 0 3 = v
    revert v
    decide
  · rename_i hm
    split at h
    · rename_i hrm
      unfold readSib at h
      obtain ⟨sib, r, h1, h2⟩ := Parsed.bind_eq_got h
      have hb := readByte_eq_got h1
      subst hb
      simp only at h2
      split at h2
      · rename_i hc
        obtain ⟨d, r2, h3, h4⟩ := Parsed.bind_eq_got h2
        cases h4
        obtain ⟨own, a1, a2, a3⟩ := readDisp32_eq_got h3
        refine ⟨sib :: own, by simp [a1], by simp [Src2.nsib, Src2.ndisp, a2], rfl, ?_, ?_⟩
        · intro a _
          rw [a, Src2.fits32, MemOperand.fits32]
          generalize field sib 3 3 = v
          revert v
          decide
        · intro r'
          simp only [readSrc2Field, if_neg hm, if_pos hrm, readSib, List.cons_append, readByte_cons,
            Parsed.bind_got, if_pos hc, a3]
      · rename_i hc
        obtain ⟨d, r2, h3, h4⟩ := Parsed.bind_eq_got h2
        cases h4
        obtain ⟨own, a1, a2, a4, a3⟩ := readDisp_eq_got h3
        refine ⟨sib :: own, by simp [a1], by simp [Src2.nsib, Src2.ndisp, a2]; omega, ?_, ?_, ?_⟩
        · rw [Src2.wf, MemOperand.wf, low3Is_regNum4]
          by_cases hd : d = Disp.none
          · have : field sib 0 3 ≠ 5#3 := fun hh => hc ⟨a4.1 hd, hh⟩
            simp [this]
          · simp [hd]
        · intro a b
          rw [a, b, Src2.fits32, MemOperand.fits32]
          generalize field sib 3 3 = v
          generalize field sib 0 3 = w
          revert v w
          decide
        · intro r'
          simp only [readSrc2Field, if_neg hm, if_pos hrm, readSib, List.cons_append, readByte_cons,
            Parsed.bind_got, if_neg hc, a3]
    · rename_i hrm
      split at h
      · cases h
      · rename_i hx
        split at h
        · rename_i hc
          obtain ⟨d, r2, h3, h4⟩ := Parsed.bind_eq_got h
          cases h4
          obtain ⟨own, a1, a2, a3⟩ := readDisp32_eq_got h3
          exact ⟨own, a1, by simp [Src2.nsib, Src2.ndisp, a2], rfl, fun _ _ => rfl, fun r' => by
            simp only [readSrc2Field, if_neg hm, if_neg hrm, if_neg hx, if_pos hc, a3, Parsed.bind_got]⟩
        · rename_i hc
          obtain ⟨d, r2, h3, h4⟩ := Parsed.bind_eq_got h
          cases h4
          obtain ⟨own, a1, a2, a4, a3⟩ := readDisp_eq_got h3
          refine ⟨own, a1, by simp [Src2.nsib, Src2.ndisp, a2], ?_, ?_, fun r' => by
            simp only [readSrc2Field, if_neg hm, if_neg hrm, if_neg hx, if_neg hc, a3, Parsed.bind_got]⟩
          · rw [Src2.wf, MemOperand.wf, low3Is_regNum4, low3Is_regNum4]
            by_cases hd : d = Disp.none
            · have : field modrm 0 3 ≠ 5#3 := fun hh => hc ⟨a4.1 hd, hh⟩
              simp [hrm, this]
            · simp [hrm, hd]
          · intro _ b
            rw [b, Src2.fits32, MemOperand.fits32]
            generalize field modrm 0 3 = w
            revert w
            decide

/-- The operands of the form `L'L` selects are the ones it was given. -/
@[simp] theorem formOf_operands (ll : BitVec 2) (o : Operands) : (formOf ll o).operands = o := by
  unfold formOf
  split
  · rfl
  · split <;> rfl

/-- What reading the operands consumed: ModRM, the bytes of operand 3 and the immediate (30 R95, R113). -/
theorem readOperands_eq_got {p : Prefixes} {p0 p1 p2 : Byte} {bytes rest : List Byte} {i : Instr}
    (h : readOperands p p0 p1 p2 bytes = .got i rest) :
    ∃ modrm own imm src2, bytes = modrm :: own ++ imm :: rest ∧ own.length = src2.nsib + src2.ndisp ∧
      src2.wf = true ∧ (p0.getLsbD 6 = true → p0.getLsbD 5 = true → src2.fits32 = true) ∧
      i = formOf (field p2 5 2)
        { prefixes := p, dest := destOf p0 modrm, src1 := src1Of p1 p2, src2 := src2, mask := field p2 0 3,
          zeroing := p2.getLsbD 7, imm8 := imm } ∧
      ∀ rest', readOperands p p0 p1 p2 (modrm :: own ++ imm :: rest') = .got i rest' := by
  unfold readOperands at h
  obtain ⟨modrm, r, h1, h2⟩ := Parsed.bind_eq_got h
  obtain ⟨src2, r2, h3, h4⟩ := Parsed.bind_eq_got h2
  obtain ⟨imm, r3, h5, h6⟩ := Parsed.bind_eq_got h4
  cases h6
  obtain ⟨own, a1, a2, a3, a4, a5⟩ := readSrc2Field_eq_got h3
  have e1 := readByte_eq_got h1
  have e2 := readByte_eq_got h5
  subst e1 e2
  refine ⟨modrm, own, imm, src2, by simp [a1], a2, a3, a4, rfl, fun r' => ?_⟩
  simp only [readOperands, List.cons_append, readByte_cons, Parsed.bind_got, a5]

/-- The prefix scan goes past the bytes an encoder writes (30 R111). -/
theorem scanPrefixes_encode (m : Mode) (p : Prefixes) (rest : List Byte) :
    scanPrefixes m { seg := none, addrSize := false } false (encodePrefixes p ++ 0x62#8 :: rest) =
      .got (p, false) (0x62#8 :: rest) := by
  obtain ⟨sg, a⟩ := p
  have h : rexPrefix m 0x62#8 = false := by cases m <;> decide
  rcases sg with _ | sg
  · cases a <;> simp [encodePrefixes, scanPrefixes, segOfByte, forbiddenPrefix, h]
  · cases sg <;> cases a <;> simp [encodePrefixes, scanPrefixes, segOfByte, segByte, forbiddenPrefix, h]

/-- The body of an encoding whose five fixed-length bytes are there (30 R113). -/
theorem decodeBody_evex (m : Mode) (csD : Bool) (p : Prefixes) (bad : Bool) (p0 p1 p2 op : Byte) (rest : List Byte) :
    decodeBody m csD p bad (0x62#8 :: p0 :: p1 :: p2 :: op :: rest) =
      if evexHere m p0 then decodeEvex m csD p bad p0 p1 p2 op rest else .refused .notThisInstruction := by
  cases h : evexHere m p0 <;> simp [decodeBody, h]

/-- A body that is decoded has its five fixed-length bytes, and they are an EVEX prefix in the mode. -/
theorem decodeBody_eq_got {m : Mode} {csD : Bool} {p : Prefixes} {bad : Bool} {bytes rest : List Byte} {i : Instr}
    (h : decodeBody m csD p bad bytes = .got i rest) :
    ∃ p0 p1 p2 op tail, bytes = 0x62#8 :: p0 :: p1 :: p2 :: op :: tail ∧ evexHere m p0 = true ∧
      decodeEvex m csD p bad p0 p1 p2 op tail = .got i rest := by
  obtain ⟨b, r, hb, k⟩ := Parsed.bind_eq_got h
  split at k
  · cases k
  · rename_i h62
    obtain ⟨p0, r0, h0, k0⟩ := Parsed.bind_eq_got k
    split at k0
    · cases k0
    · rename_i he
      obtain ⟨p1, r1, h1, k1⟩ := Parsed.bind_eq_got k0
      obtain ⟨p2, r2, h2, k2⟩ := Parsed.bind_eq_got k1
      obtain ⟨op, tail, h3, k3⟩ := Parsed.bind_eq_got k2
      refine ⟨p0, p1, p2, op, tail, ?_, by simpa using he, k3⟩
      rw [readByte_eq_got hb, readByte_eq_got h0, readByte_eq_got h1, readByte_eq_got h2, readByte_eq_got h3,
        Decidable.not_not.1 h62]

end Sys2Proof
end

