-- ==== Sys2Proof/Laws/Elements.lean ====
section
/-! SUPPORT. Elements of an assembled value: what every use of `pack`, `elem` and `low` needs. -/

namespace Sys2Proof.Machine

theorem getLsbD_elem {n : Nat} (w : Nat) (v : BitVec n) (i b : Nat) :
    (elem w v i).getLsbD b = (decide (b < w) && v.getLsbD (w * i + b)) := by
  simp [elem, BitVec.getLsbD_extractLsb']

/-- An assembled value has no bit at or above the end of its elements. -/
theorem getLsbD_pack_above (w : Nat) (f : Nat → BitVec w) (n b : Nat) (h : w * n ≤ b) :
    (pack w f n).getLsbD b = false := by
  induction n with
  | zero => simp [pack]
  | succ n ih =>
    have hb : w * n + w ≤ b := by rwa [Nat.mul_succ] at h
    have : (f n).getLsbD (b - w * n) = false := BitVec.getLsbD_of_ge _ _ (by omega)
    simp [pack, ih (by omega), this]

/-- Bit `b` of element `i` of an assembled value is that bit of the element. -/
theorem getLsbD_pack (w : Nat) (f : Nat → BitVec w) (n : Nat) (hn : w * n ≤ 512) (i b : Nat) (hi : i < n) (hb : b < w) :
    (pack w f n).getLsbD (w * i + b) = (f i).getLsbD b := by
  induction n with
  | zero => omega
  | succ n ih =>
    have hw : w * n + w ≤ 512 := by rwa [Nat.mul_succ] at hn
    rcases Nat.lt_succ_iff_lt_or_eq.mp hi with h | rfl
    · have hlt : w * i + b < w * n := by
        calc w * i + b < w * i + w := by omega
          _ = w * (i + 1) := by ring
          _ ≤ w * n := Nat.mul_le_mul_left w h
      simp [pack, ih (by omega) h, hlt]
    · have h1 : w * i + b < 512 := by omega
      have h2 : b < 512 := by omega
      have h3 : ¬ w * i + b < w * i := by omega
      rw [pack, BitVec.getLsbD_or, getLsbD_pack_above w f i (w * i + b) (by omega), BitVec.getLsbD_shiftLeft,
        BitVec.getLsbD_setWidth]
      simp only [h1, h3, decide_true, decide_false, Bool.not_false, Bool.true_and, Bool.false_or,
        Nat.add_sub_cancel_left, h2]

/-- Element `i` of an assembled value is what was put there. -/
theorem elem_pack (w : Nat) (f : Nat → BitVec w) (n : Nat) (hn : w * n ≤ 512) (i : Nat) (hi : i < n) :
    elem w (pack w f n) i = f i := by
  apply BitVec.eq_of_getLsbD_eq
  intro b hb
  rw [getLsbD_elem, getLsbD_pack w f n hn i b hi hb]
  simp [hb]

/-- A bit of the VL-bit view of a register. -/
theorem getLsbD_low (vl : VecLen) (v : VecVal) (b : Nat) : (low vl v).getLsbD b = (decide (b < vl.bits) && v.getLsbD b) := by
  have h : vl.bits ≤ 512 := by cases vl <;> decide
  simp only [low, BitVec.getLsbD_setWidth]
  by_cases hb : b < 512
  · simp [hb]
  · simp [hb, BitVec.getLsbD_of_ge v b (by omega)]

/-- An element inside the VL bits is the same in the VL-bit view. -/
theorem elem_low (vl : VecLen) (v : VecVal) (w i : Nat) (h : w * i + w ≤ vl.bits) : elem w (low vl v) i = elem w v i := by
  apply BitVec.eq_of_getLsbD_eq
  intro b hb
  have : w * i + b < vl.bits := by omega
  rw [getLsbD_elem, getLsbD_elem, getLsbD_low]
  simp only [this, decide_true, Bool.true_and]

/-- An element of an element: the smaller one at its place in the whole value. -/
theorem elem_elem {n : Nat} (w m : Nat) (v : BitVec n) (i j : Nat) (h : w * j + w ≤ w * m) :
    elem w (elem (w * m) v i) j = elem w v (m * i + j) := by
  apply BitVec.eq_of_getLsbD_eq
  intro b hb
  have h1 : w * j + b < w * m := by omega
  have h2 : w * m * i + (w * j + b) = w * (m * i + j) + b := by ring
  rw [getLsbD_elem, getLsbD_elem, getLsbD_elem, h2]
  simp only [hb, h1, decide_true, Bool.true_and]

/-- The absolute difference of two bytes is at most 255 (00 R10). -/
theorem absDiff_le (a b : Byte) : absDiff a b ≤ 255 := by
  have ha := a.isLt
  have hb := b.isLt
  simp only [absDiff]
  omega

/-- `|a - b|` = `|b - a|` (40 R143). -/
theorem absDiff_comm (a b : Byte) : absDiff a b = absDiff b a := by
  simp only [absDiff]
  omega

end Sys2Proof.Machine
end

