-- ==== Sys2Proof/Laws/Memory.lean ====
section
/-! SUPPORT. Memory: every operation keeps the canonical form, and a stored byte is the byte read. -/

namespace Sys2Proof.Machine

/-- The addresses of a memory after a store are the old ones and the new one. -/
theorem Memory.mem_store {a : Nat} {b : Byte} {m : Memory} {x : Host.Cell} (h : x ∈ Memory.store a b m) :
    x.1 = a ∨ x ∈ m := by
  induction m with
  | nil => simp_all [Memory.store]
  | cons c m ih =>
    obtain ⟨c, d⟩ := c
    simp only [Memory.store] at h
    split at h
    · rcases List.mem_cons.mp h with rfl | h
      · exact .inl rfl
      · exact .inr h
    · split at h
      · rcases List.mem_cons.mp h with rfl | h
        · exact .inl rfl
        · exact .inr (List.mem_cons_of_mem _ h)
      · rcases List.mem_cons.mp h with rfl | h
        · exact .inr (List.mem_cons_self)
        · exact (ih h).imp_right (List.mem_cons_of_mem _)

/-- A store keeps the canonical form. -/
theorem Memory.store_wf {a : Nat} {b : Byte} {m : Memory} (h : Memory.wf m) : Memory.wf (Memory.store a b m) := by
  induction m with
  | nil => simp [Memory.store, Memory.wf]
  | cons c m ih =>
    obtain ⟨c, d⟩ := c
    obtain ⟨h1, h2⟩ := List.pairwise_cons.mp h
    simp only [Memory.store]
    split
    · refine List.pairwise_cons.mpr ⟨fun x hx => ?_, h⟩
      rcases List.mem_cons.mp hx with rfl | hx
      · assumption
      · have := h1 x hx
        simp only at this ⊢
        omega
    · split
      · subst a
        exact List.pairwise_cons.mpr ⟨h1, h2⟩
      · refine List.pairwise_cons.mpr ⟨fun x hx => ?_, ih h2⟩
        rcases Memory.mem_store hx with hx | hx
        · simp only
          omega
        · exact h1 x hx

/-- Reading an address just stored to gives the byte stored. -/
theorem Memory.read_store_self (a : Nat) (b : Byte) (m : Memory) : Memory.read (Memory.store a b m) a = some b := by
  induction m with
  | nil => simp [Memory.store, Memory.read]
  | cons c m ih =>
    obtain ⟨c, d⟩ := c
    simp only [Memory.store]
    split
    · simp [Memory.read]
    · split
      · simp [Memory.read]
      · simp [Memory.read, *]

/-- A store leaves every other address alone. -/
theorem Memory.read_store_other {a x : Nat} (b : Byte) (m : Memory) (h : x ≠ a) :
    Memory.read (Memory.store a b m) x = Memory.read m x := by
  induction m with
  | nil => simp [Memory.store, Memory.read, h]
  | cons c m ih =>
    obtain ⟨c, d⟩ := c
    simp only [Memory.store]
    split
    · simp [Memory.read, h]
    · split
      · subst a
        simp [Memory.read, h]
      · simp [Memory.read, ih]

/-- Placing bytes where they are fetched keeps the canonical form. -/
theorem State.placeFrom_wf (s : State) (bs : List Byte) (i : Nat) (m : Memory) (h : Memory.wf m) :
    Memory.wf (s.placeFrom i bs m) := by
  induction bs generalizing i m with
  | nil => exact h
  | cons b bs ih =>
    simp only [State.placeFrom]
    split
    · exact ih _ _ (Memory.store_wf h)
    · exact ih _ _ h

/-- `withFetchWord` keeps the canonical form. -/
theorem State.withFetchWord_wf (s : State) (nbits w : Nat) (h : Memory.wf s.mem) :
    Memory.wf (s.withFetchWord nbits w).mem :=
  s.placeFrom_wf _ _ _ h

/-- The memory of the start state is in canonical form. -/
theorem State.reset_mem_wf : Memory.wf State.reset.mem := List.Pairwise.nil

end Sys2Proof.Machine
end

