-- ==== Sys2Proof/Laws/State.lean ====
section
/-! SUPPORT. One lemma per field of State for each update of it, and reading a register after writing one. -/

namespace Sys2Proof.Machine

variable (s : State) (r : BitVec 5) (v : VecVal) (n : Nat)

@[simp] theorem State.writeZmm_k : (s.writeZmm r v).k = s.k := rfl
@[simp] theorem State.writeZmm_gpr : (s.writeZmm r v).gpr = s.gpr := rfl
@[simp] theorem State.writeZmm_rip : (s.writeZmm r v).rip = s.rip := rfl
@[simp] theorem State.writeZmm_rflags : (s.writeZmm r v).rflags = s.rflags := rfl
@[simp] theorem State.writeZmm_mxcsr : (s.writeZmm r v).mxcsr = s.mxcsr := rfl
@[simp] theorem State.writeZmm_seg : (s.writeZmm r v).seg = s.seg := rfl
@[simp] theorem State.writeZmm_csL : (s.writeZmm r v).csL = s.csL := rfl
@[simp] theorem State.writeZmm_csD : (s.writeZmm r v).csD = s.csD := rfl
@[simp] theorem State.writeZmm_cpl : (s.writeZmm r v).cpl = s.cpl := rfl
@[simp] theorem State.writeZmm_cr0 : (s.writeZmm r v).cr0 = s.cr0 := rfl
@[simp] theorem State.writeZmm_cr4 : (s.writeZmm r v).cr4 = s.cr4 := rfl
@[simp] theorem State.writeZmm_xcr0 : (s.writeZmm r v).xcr0 = s.xcr0 := rfl
@[simp] theorem State.writeZmm_efer : (s.writeZmm r v).efer = s.efer := rfl
@[simp] theorem State.writeZmm_cpuid : (s.writeZmm r v).cpuid = s.cpuid := rfl
@[simp] theorem State.writeZmm_mem : (s.writeZmm r v).mem = s.mem := rfl
@[simp] theorem State.writeZmm_params : (s.writeZmm r v).params = s.params := rfl
@[simp] theorem State.writeZmm_mode : (s.writeZmm r v).mode = s.mode := rfl
@[simp] theorem State.writeZmm_nextIp : (s.writeZmm r v).nextIp n = s.nextIp n := rfl

@[simp] theorem State.advance_zmm : (s.advance n).zmm = s.zmm := rfl
@[simp] theorem State.advance_k : (s.advance n).k = s.k := rfl
@[simp] theorem State.advance_gpr : (s.advance n).gpr = s.gpr := rfl
@[simp] theorem State.advance_rip : (s.advance n).rip = s.nextIp n := rfl
@[simp] theorem State.advance_rflags : (s.advance n).rflags = s.rflags := rfl
@[simp] theorem State.advance_mxcsr : (s.advance n).mxcsr = s.mxcsr := rfl
@[simp] theorem State.advance_seg : (s.advance n).seg = s.seg := rfl
@[simp] theorem State.advance_csL : (s.advance n).csL = s.csL := rfl
@[simp] theorem State.advance_csD : (s.advance n).csD = s.csD := rfl
@[simp] theorem State.advance_cpl : (s.advance n).cpl = s.cpl := rfl
@[simp] theorem State.advance_cr0 : (s.advance n).cr0 = s.cr0 := rfl
@[simp] theorem State.advance_cr4 : (s.advance n).cr4 = s.cr4 := rfl
@[simp] theorem State.advance_xcr0 : (s.advance n).xcr0 = s.xcr0 := rfl
@[simp] theorem State.advance_efer : (s.advance n).efer = s.efer := rfl
@[simp] theorem State.advance_cpuid : (s.advance n).cpuid = s.cpuid := rfl
@[simp] theorem State.advance_mem : (s.advance n).mem = s.mem := rfl
@[simp] theorem State.advance_params : (s.advance n).params = s.params := rfl
@[simp] theorem State.advance_mode : (s.advance n).mode = s.mode := rfl

@[simp] theorem State.advance_readZmm (q : BitVec 5) : (s.advance n).readZmm q = s.readZmm q := rfl

@[simp] theorem State.readZmm_writeZmm_self : (s.writeZmm r v).readZmm r = v := by
  simp [State.readZmm, State.writeZmm]

theorem State.readZmm_writeZmm_other {q : BitVec 5} (h : q ≠ r) : (s.writeZmm r v).readZmm q = s.readZmm q := by
  have : r.toNat ≠ q.toNat := fun e => h (BitVec.eq_of_toNat_eq e.symm)
  simp [State.readZmm, State.writeZmm, this]

end Sys2Proof.Machine
end

