-- ==== Sys2Proof/Laws/Ops.lean ====
section
/-! SUPPORT. One lemma per shared operation that says everything it can do: the gate, MemRead, and the events of
an execution. -/

namespace Sys2Proof.Machine

/-- The gate lets an instruction through exactly when no condition of 60 R172 holds and `cr0.TS` = 0. -/
theorem gate_eq_none {vl : VecLen} {s : State} : gate vl s = none ↔ udState vl s = false ∧ s.ts = false := by
  cases h : udState vl s <;> cases h' : s.ts <;> simp [gate, h, h']

/-- What a stopped MemRead can have stopped for, in the order of the checks. -/
theorem memRead_cases (s : State) (sg : Seg) (ea : BitVec 64) (n : Nat) :
    (segmentFaults s sg ea n = true ∧ memRead s sg ea n = .error (.fault (segFault sg))) ∨
    (segmentFaults s sg ea n = false ∧ s.top < (linearAddr s sg ea).toNat + n ∧
      memRead s sg ea n = .error (.refused .addressWrap)) ∨
    (segmentFaults s sg ea n = false ∧ (linearAddr s sg ea).toNat + n ≤ s.top ∧
      ∃ f fs, pageFaults s (linearAddr s sg ea).toNat n = f :: fs ∧
        memRead s sg ea n =
          .error (.fault (.pf (pickPageFault f fs).1 (BitVec.ofNat 64 (pickPageFault f fs).2)))) ∨
    (segmentFaults s sg ea n = false ∧ (linearAddr s sg ea).toNat + n ≤ s.top ∧
      pageFaults s (linearAddr s sg ea).toNat n = [] ∧ alignFaults s (linearAddr s sg ea).toNat n = true ∧
      memRead s sg ea n = .error (.fault .ac)) ∨
    (segmentFaults s sg ea n = false ∧ (linearAddr s sg ea).toNat + n ≤ s.top ∧
      pageFaults s (linearAddr s sg ea).toNat n = [] ∧ alignFaults s (linearAddr s sg ea).toNat n = false ∧
      (∃ i < n, s.dataByte ((linearAddr s sg ea).toNat + i) = none) ∧
      memRead s sg ea n = .error (.refused .notPlainMemory)) ∨
    (segmentFaults s sg ea n = false ∧ (linearAddr s sg ea).toNat + n ≤ s.top ∧
      pageFaults s (linearAddr s sg ea).toNat n = [] ∧ alignFaults s (linearAddr s sg ea).toNat n = false ∧
      (∀ i < n, (s.dataByte ((linearAddr s sg ea).toNat + i)).isSome = true) ∧
      memRead s sg ea n = .ok (pack 8 (fun i => (s.dataByte ((linearAddr s sg ea).toNat + i)).getD 0) n)) := by
  unfold memRead
  cases h1 : segmentFaults s sg ea n
  · by_cases h2 : s.top < (linearAddr s sg ea).toNat + n
    · simp [h2]
    · have h2' := Nat.le_of_not_lt h2
      cases h3 : pageFaults s (linearAddr s sg ea).toNat n with
      | cons f fs => simp [h2, h2']
      | nil =>
        cases h4 : alignFaults s (linearAddr s sg ea).toNat n
        · by_cases h5 : ∀ i < n, (s.dataByte ((linearAddr s sg ea).toNat + i)).isSome = true
          · have : ((List.range n).all fun i => (s.dataByte ((linearAddr s sg ea).toNat + i)).isSome) = true := by
              simpa using h5
            exact .inr (.inr (.inr (.inr (.inr ⟨rfl, h2', rfl, rfl, h5, by simp [h2, this]⟩))))
          · have h6 : ∃ i < n, s.dataByte ((linearAddr s sg ea).toNat + i) = none := by
              simpa using h5
            have : ((List.range n).all fun i => (s.dataByte ((linearAddr s sg ea).toNat + i)).isSome) = false := by
              simpa using h6
            exact .inr (.inr (.inr (.inr (.inl ⟨rfl, h2', rfl, rfl, h6, by simp [h2, this]⟩))))
        · simp [h2, h2']
  · simp

/-- What `pageFaults` lists: the bytes `Translate` faults, with their addresses (20 R63). -/
theorem mem_pageFaults {s : State} {la n a : Nat} {code : BitVec 32} : (code, a) ∈ pageFaults s la n ↔
    ∃ i < n, Machine.translate s.params.translate (la + i) .read s.cpl = .error code ∧ a = la + i := by
  unfold pageFaults
  simp only [List.mem_filterMap, List.mem_range]
  refine exists_congr fun i => and_congr_right fun _ => ?_
  cases Machine.translate s.params.translate (la + i) .read s.cpl <;> simp [eq_comm]

/-- The page fault reported is one of those listed, whatever the free value is (log 7). -/
theorem pickPageFault_mem (f : BitVec 32 × Nat) (fs : List (BitVec 32 × Nat)) : pickPageFault f fs ∈ f :: fs := by
  cases fs with
  | nil => exact List.mem_singleton.2 rfl
  | cons g fs =>
    show (f :: g :: fs).getD (Config.pageFaultPick (f :: g :: fs) % (f :: g :: fs).length) f ∈ _
    have h : Config.pageFaultPick (f :: g :: fs) % (f :: g :: fs).length < (f :: g :: fs).length :=
      Nat.mod_lt _ (by simp)
    rw [List.getD_eq_getElem _ _ h]
    exact List.getElem_mem _

/-- exec is `execForm` of the instruction's vector length and operands. -/
theorem exec_eq_execForm (i : Instr) (s : State) : exec i s = execForm i.vecLen i.operands s := by
  cases i <;> rfl

/-- What a next state is: the gate was passed, the second source was read, and the state is the completed one. -/
theorem execForm_next {vl : VecLen} {o : Operands} {s t : State} (h : execForm vl o s = .next t) :
    gate vl s = none ∧ ∃ src2, readSrc2 vl o s = .ok src2 ∧ t = completed vl o s src2 := by
  unfold execForm at h
  split at h
  · cases h
  · rename_i hg
    split at h
    · rename_i e _
      cases e <;> cases h
    · rename_i src2 hr
      cases h
      exact ⟨hg, src2, hr, rfl⟩

/-- An instruction that passes the gate and reads its second source completes. -/
theorem execForm_of_ok {vl : VecLen} {o : Operands} {s : State} {src2 : VecVal} (hg : gate vl s = none)
    (hr : readSrc2 vl o s = .ok src2) : execForm vl o s = .next (completed vl o s src2) := by
  simp [execForm, hg, hr]

/-- An instruction that passes the gate stops as the read of its second source stops. -/
theorem execForm_of_error {vl : VecLen} {o : Operands} {s : State} {e : Stop} (hg : gate vl s = none)
    (hr : readSrc2 vl o s = .error e) : execForm vl o s = e.outcome := by
  simp [execForm, hg, hr]

/-- An instruction that does not pass the gate takes the gate's exception. -/
theorem execForm_of_gate {vl : VecLen} {o : Operands} {s : State} {f : Fault} (hg : gate vl s = some f) :
    execForm vl o s = .fault f := by
  simp [execForm, hg, raise]

/-- What a step to a next state is: it executed the instruction decoded at the program counter. -/
theorem step_next {s t : State} (h : step s = .next t) :
    ∃ i rest, s.decoded = .got i rest ∧ exec i s = .next t := by
  unfold step at h
  split at h
  · rename_i i rest hd
    exact ⟨i, rest, hd, h⟩
  all_goals cases h

end Sys2Proof.Machine
end

