-- ==== Sys2Proof/Laws/PerInstr.lean ====
section
/-! SUPPORT. Facts about every instruction as syntax, one lemma per constructor. -/

namespace Sys2Proof.Laws.EncodedLength

/-- The encoding has the length that 30 R112 computes from the operands, between 7 and 14 bytes. -/
def Statement (i : Instr) : Prop :=
  (encode i).length = i.operands.ilen ∧ 7 ≤ i.operands.ilen ∧ i.operands.ilen ≤ 14

/-- ModRM, SIB and displacement bytes of operand 3. -/
theorem length_src2 (reg : BitVec 3) (x : Src2) : (x.encode reg).length = 1 + x.nsib + x.ndisp := by
  obtain r | (⟨b, d⟩ | d | ⟨b, i, s, d⟩ | ⟨i, s, d⟩) := x <;>
    simp [Src2.encode, Src2.nsib, Src2.ndisp] <;> omega

/-- At most one SIB byte and four displacement bytes. -/
theorem src2_bounds (x : Src2) : x.nsib ≤ 1 ∧ x.ndisp ≤ 4 := by
  obtain r | (⟨b, _ | _ | _⟩ | d | ⟨b, i, s, _ | _ | _⟩ | ⟨i, s, d⟩) := x <;>
    simp [Src2.nsib, Src2.ndisp, Disp.size]

/-- At most two prefixes. -/
theorem prefix_bound (p : Prefixes) : p.count ≤ 2 := by
  obtain ⟨_ | sg, _ | _⟩ := p <;> simp [Prefixes.count]

/-- The statement from the operands alone. -/
theorem of_operands (i : Instr) : Statement i := by
  have h1 := src2_bounds i.operands.src2
  have h2 := prefix_bound i.operands.prefixes
  refine ⟨?_, ?_, ?_⟩
  · simp [encode, length_src2, Operands.ilen]
    omega
  · simp only [Operands.ilen]
    omega
  · simp only [Operands.ilen]
    omega

theorem vdbpsadbw128 (o : Operands) : Statement (.vdbpsadbw128 o) := of_operands _

theorem vdbpsadbw256 (o : Operands) : Statement (.vdbpsadbw256 o) := of_operands _

theorem vdbpsadbw512 (o : Operands) : Statement (.vdbpsadbw512 o) := of_operands _

end Sys2Proof.Laws.EncodedLength
end

