-- ==== Sys2Proof/Laws/Vdbpsadbw.lean ====
section
/-! SUPPORT. Elements of TMP1, TMP_DEST and the new destination value, so that no proof unfolds them again. -/

namespace Sys2Proof.Machine

/-- KL words of 16 bits fit into a vector register. -/
theorem words_fit (vl : VecLen) : 16 * vl.words ≤ 512 := by cases vl <;> decide

/-- The selector of dword `d` of a lane (40 R131). -/
theorem toNat_selector (imm8 : BitVec 8) (d : Nat) (h : d < 4) : (elem 2 imm8 d).toNat = imm8.toNat / 4 ^ d % 4 := by
  have : d = 0 ∨ d = 1 ∨ d = 2 ∨ d = 3 := by omega
  rcases this with rfl | rfl | rfl | rfl <;> revert imm8 <;> decide

/-- A byte is the byte of its dword. -/
theorem byteAt_dwordAt {n : Nat} (v : BitVec n) (b : Nat) : byteAt v b = byteAt (dwordAt v (b / 4)) (b % 4) := by
  unfold byteAt dwordAt
  rw [elem_elem 8 4 v (b / 4) _ (by omega)]
  congr 1
  omega

/-- A dword of TMP1 (40 R131). -/
theorem dwordAt_tmp1 (vl : VecLen) (src2 : VecVal) (imm8 : BitVec 8) (i : Nat) (h : i < vl.bits / 32) :
    dwordAt (tmp1 vl src2 imm8) i = dwordAt src2 (4 * (i / 4) + imm8.toNat / 4 ^ (i % 4) % 4) := by
  unfold tmp1 dwordAt
  rw [elem_pack _ _ _ (by cases vl <;> decide) _ h]
  unfold tmp1Dword Machine.select dwordAt laneAt
  rw [toNat_selector _ _ (by omega), elem_elem 32 4 src2 (i / 4) _ (by omega)]

/-- A word of TMP_DEST (40 R133). -/
theorem wordAt_tmpDest (vl : VecLen) (src1 t1 : VecVal) (j : Nat) (h : j < vl.words) :
    wordAt (tmpDest vl src1 t1) j = sadWord (qwordAt src1 (j / 4)) (qwordAt t1 (j / 4)) (j % 4) := by
  unfold tmpDest wordAt
  rw [elem_pack _ _ _ (words_fit vl) _ h]

/-- A sum of absolute differences fits into a word (00 R10). -/
theorem toNat_sadWord (s t : BitVec 64) (r : Nat) :
    (sadWord s t r).toNat = sad4 (dwordAt s (r / 2)) (t.extractLsb' (8 * r) 32) := by
  have h0 := absDiff_le (byteAt (dwordAt s (r / 2)) 0) (byteAt (t.extractLsb' (8 * r) 32) 0)
  have h1 := absDiff_le (byteAt (dwordAt s (r / 2)) 1) (byteAt (t.extractLsb' (8 * r) 32) 1)
  have h2 := absDiff_le (byteAt (dwordAt s (r / 2)) 2) (byteAt (t.extractLsb' (8 * r) 32) 2)
  have h3 := absDiff_le (byteAt (dwordAt s (r / 2)) 3) (byteAt (t.extractLsb' (8 * r) 32) 3)
  rw [sadWord, BitVec.toNat_ofNat]
  exact Nat.mod_eq_of_lt (by unfold sad4; omega)

/-- A byte of the sliding dword at byte offset `r` (40 R133). -/
theorem byteAt_sliding (t : BitVec 64) (r k : Nat) (hk : k < 4) :
    byteAt (t.extractLsb' (8 * r) 32) k = byteAt t (r + k) := by
  apply BitVec.eq_of_getLsbD_eq
  intro b hb
  have h : 8 * k + b < 32 := by omega
  have h' : 8 * r + (8 * k + b) = 8 * (r + k) + b := by omega
  rw [getLsbD_elem, getLsbD_elem, BitVec.getLsbD_extractLsb', h']
  simp only [hb, h, decide_true, Bool.true_and]

/-- A word of the new destination value below VL (40 R134). -/
theorem wordAt_newDest (vl : VecLen) (write : Nat → Bool) (zeroing : Bool) (result old : VecVal) (j : Nat)
    (h : j < vl.words) : wordAt (newDest vl write zeroing result old) j =
      if write j then wordAt result j else if zeroing then 0 else wordAt old j := by
  unfold newDest wordAt
  rw [elem_pack _ _ _ (words_fit vl) _ h]

/-- The new destination value is zero at VL and above (40 R136). -/
theorem getLsbD_newDest_above (vl : VecLen) (write : Nat → Bool) (zeroing : Bool) (result old : VecVal) (b : Nat)
    (h : 16 * vl.words ≤ b) : (newDest vl write zeroing result old).getLsbD b = false :=
  getLsbD_pack_above _ _ _ _ h

end Sys2Proof.Machine
end

