-- ==== Sys2Proof/Tests/Slice0.lean ====
section
/-! SUPPORT. The model's own tests: well-formedness, decoding of words written out from the spec, one-step vectors of
95_test_vectors.md, and a witness for the hypotheses of every statement that has some. -/

namespace Sys2Proof.Tests

open Sys2Proof.Machine Sys2Proof.Claims

/-- No legacy prefix. -/
abbrev noPfx : Prefixes := { seg := none, addrSize := false }

/-- Operands without prefix and without writemask. -/
abbrev ops (d a : BitVec 5) (x : Src2) (imm : BitVec 8) : Operands :=
  { prefixes := noPfx, dest := d, src1 := a, src2 := x, mask := 0, zeroing := false, imm8 := imm }

/-! WellFormed: one ill-formed term for each check. -/

theorem test_wf_accepts : (Instr.vdbpsadbw512 (ops 30 29 (.mem (.sib 12 13 2 (.d8 0xFF))) 0xAB)).wf = true := by decide

theorem test_wf_refuses_zeroing_without_mask :
    (Instr.vdbpsadbw128 { ops 1 2 (.reg 3) 0 with zeroing := true }).wf = false := by decide

theorem test_wf_refuses_base_that_selects_sib :
    (Instr.vdbpsadbw128 (ops 1 2 (.mem (.base 12 .none)) 0)).wf = false := by decide

theorem test_wf_refuses_base_5_without_displacement :
    (Instr.vdbpsadbw128 (ops 1 2 (.mem (.base 13 .none)) 0)).wf = false := by decide

theorem test_wf_refuses_sib_base_5_without_displacement :
    (Instr.vdbpsadbw128 (ops 1 2 (.mem (.sib 5 0 0 .none)) 0)).wf = false := by decide

theorem test_fits32_refuses_each_high_register :
    (Instr.vdbpsadbw128 (ops 8 2 (.reg 3) 0)).fits32 = false ∧ (Instr.vdbpsadbw128 (ops 1 16 (.reg 3) 0)).fits32 = false ∧
    (Instr.vdbpsadbw128 (ops 1 2 (.reg 8) 0)).fits32 = false ∧
    (Instr.vdbpsadbw128 (ops 1 2 (.mem (.base 8 .none)) 0)).fits32 = false ∧
    (Instr.vdbpsadbw128 (ops 1 2 (.mem (.sib 0 8 0 .none)) 0)).fits32 = false ∧
    (Instr.vdbpsadbw128 { ops 1 2 (.reg 3) 0 with prefixes := ⟨none, true⟩ }).fits32 = false := by decide

/-! Decoding: the words of 95_test_vectors.md section 3. -/

/-- Decode in Mode64, with nothing left over. -/
abbrev dec64 (bytes : List Byte) : Parsed Instr := decode .mode64 false bytes

theorem test_decode_E1 :
    dec64 [0x62, 0xF3, 0x6D, 0x08, 0x42, 0xCB, 0xE4] = .got (.vdbpsadbw128 (ops 1 2 (.reg 3) 0xE4)) [] := by decide

theorem test_decode_E2 :
    dec64 [0x62, 0xF3, 0x6D, 0x29, 0x42, 0xCB, 0x4E] =
      .got (.vdbpsadbw256 { ops 1 2 (.reg 3) 0x4E with mask := 1 }) [] := by decide

theorem test_decode_E3 :
    dec64 [0x62, 0x03, 0x15, 0xC7, 0x42, 0xF4, 0xAB] =
      .got (.vdbpsadbw512 { ops 30 29 (.reg 28) 0xAB with mask := 7, zeroing := true }) [] := by decide

theorem test_decode_E4 :
    dec64 [0x62, 0x33, 0x05, 0x08, 0x42, 0xC0, 0x55] = .got (.vdbpsadbw128 (ops 8 15 (.reg 16) 0x55)) [] := by decide

theorem test_decode_E6_disp8 :
    dec64 [0x62, 0xF3, 0x6D, 0x48, 0x42, 0x48, 0x01, 0x00] =
      .got (.vdbpsadbw512 (ops 1 2 (.mem (.base 0 (.d8 1))) 0)) [] := by decide

theorem test_decode_E7_rip_relative :
    dec64 [0x62, 0xF3, 0x6D, 0x08, 0x42, 0x0D, 0x00, 0x01, 0x00, 0x00, 0x1B] =
      .got (.vdbpsadbw128 (ops 1 2 (.mem (.ripDisp 0x100)) 0x1B)) [] := by decide

theorem test_decode_E8_sib :
    dec64 [0x62, 0x13, 0x75, 0x22, 0x42, 0x4C, 0xAC, 0xFF, 0xFF] =
      .got (.vdbpsadbw256 { ops 9 17 (.mem (.sib 12 13 2 (.d8 0xFF))) 0xFF with mask := 2 }) [] := by decide

theorem test_decode_E9_disp32 :
    dec64 [0x62, 0xF3, 0x75, 0xC9, 0x42, 0x86, 0x00, 0x10, 0x00, 0x00, 0x93] =
      .got (.vdbpsadbw512 { ops 0 1 (.mem (.base 6 (.d32 0x1000))) 0x93 with mask := 1, zeroing := true }) [] := by
  decide

theorem test_decode_sib_without_base :
    dec64 [0x62, 0xF3, 0x6D, 0x08, 0x42, 0x0C, 0x85, 0x01, 0x00, 0x00, 0x80, 0x1B] =
      .got (.vdbpsadbw128 (ops 1 2 (.mem (.sibNoBase 0 2 0x80000001)) 0x1B)) [] := by decide

theorem test_decode_E11_E12_prefixes :
    dec64 [0x65, 0x62, 0xF3, 0x6D, 0x08, 0x42, 0x08, 0xE4] =
        .got (.vdbpsadbw128 { ops 1 2 (.mem (.base 0 .none)) 0xE4 with prefixes := ⟨some .gs, false⟩ }) [] ∧
    dec64 [0x67, 0x62, 0xF3, 0x6D, 0x08, 0x42, 0x08, 0xE4] =
        .got (.vdbpsadbw128 { ops 1 2 (.mem (.base 0 .none)) 0xE4 with prefixes := ⟨none, true⟩ }) [] := by decide

theorem test_decode_ud_U1_to_U8 :
    dec64 [0x62, 0xF3, 0x6D, 0x18, 0x42, 0xCB, 0xE4] = .ud ∧ dec64 [0x62, 0xF3, 0x6D, 0x68, 0x42, 0xCB, 0xE4] = .ud ∧
    dec64 [0x62, 0xF3, 0xED, 0x08, 0x42, 0xCB, 0xE4] = .ud ∧ dec64 [0x62, 0xF3, 0x6D, 0x88, 0x42, 0xCB, 0xE4] = .ud ∧
    dec64 [0x66, 0x62, 0xF3, 0x6D, 0x08, 0x42, 0xCB, 0xE4] = .ud ∧
    dec64 [0xF0, 0x62, 0xF3, 0x6D, 0x08, 0x42, 0x08, 0xE4] = .ud ∧
    dec64 [0x62, 0xF7, 0x6D, 0x08, 0x42, 0xCB, 0xE4] = .ud ∧
    dec64 [0x62, 0xF3, 0x69, 0x08, 0x42, 0xCB, 0xE4] = .ud := by decide

theorem test_decode_refused_U17_to_U21 :
    dec64 [0x62, 0xF3, 0x6D, 0x08, 0x43, 0xCB, 0xE4] = .refused .notThisInstruction ∧
    dec64 [0x62, 0xF2, 0x6D, 0x08, 0x42, 0xCB] = .refused .notThisInstruction ∧
    dec64 [0x62, 0xB3, 0x6D, 0x08, 0x42, 0x08, 0xE4] = .refused .xNoSib ∧
    decode .prot32 true [0x67, 0x62, 0xF3, 0x6D, 0x08, 0x42, 0x08, 0xE4] = .refused .addr16 ∧
    decode .prot32 true [0x62, 0xD3, 0x6D, 0x08, 0x42, 0xCB, 0xE4] = .refused .evex32 ∧
    dec64 [0x26, 0x65, 0x62, 0xF3, 0x6D, 0x08, 0x42, 0xCB, 0xE4] = .refused .prefixes := by decide

theorem test_decode_prot32_U22 :
    decode .prot32 true [0x62, 0xF3, 0x6D, 0x08, 0x42, 0xCB, 0xE4] =
      .got (.vdbpsadbw128 (ops 1 2 (.reg 3) 0xE4)) [] := by decide

theorem test_encode_E8 :
    encode (.vdbpsadbw256 { ops 9 17 (.mem (.sib 12 13 2 (.d8 0xFF))) 0xFF with mask := 2 }) =
      [0x62, 0x13, 0x75, 0x22, 0x42, 0x4C, 0xAC, 0xFF, 0xFF] := by decide

theorem test_table_word_E1 :
    decodeTableWord 56 0xE4CB42086DF362 = some (.vdbpsadbw128 (ops 1 2 (.reg 3) 0xE4)) := by decide

/-! One-step vectors: two for each instruction. -/

/-- The start state with values in registers 1 (old destination), 2 and 3 (sources) and in k1. -/
def vec (old a b : VecVal) (k1 : BitVec 64) : State :=
  { ((State.reset.writeZmm 1 old).writeZmm 2 a).writeZmm 3 b with k := #v[0, k1, 0, 0, 0, 0, 0, 0] }

/-- Register 1 after an outcome, 0 where there is no next state. -/
def zmm1 : Host.Outcome State Fault Refusal → VecVal
  | .next t => t.readZmm 1
  | .fault _ => 0
  | .refused _ => 0

/-- The exception of an outcome, if it is one. -/
def faultOf : Host.Outcome State Fault Refusal → Option Fault
  | .next _ => none
  | .fault f => some f
  | .refused _ => none

/-- The refusal of an outcome, if it is one. -/
def refusalIn : Host.Outcome State Fault Refusal → Option Refusal
  | .next _ => none
  | .fault _ => none
  | .refused r => some r

/-- Sixty-four bytes EEh. -/
def ee : VecVal := BitVec.ofNat 512 (0xEE * ((2 ^ 512 - 1) / 255))

/-- Byte i of this operand of vectors T11 to T14 is (7i+3) mod 256. -/
def t13a : VecVal :=
  0xBCB5AEA7A099928B847D766F68615A534C453E373029221B140D06FFF8F1EAE3DCD5CEC7C0B9B2ABA49D968F88817A736C655E575049423B342D261F18110A03

/-- Byte i of this operand of vectors T11 to T14 is (13i+5) mod 256. -/
def t13b : VecVal :=
  0x382B1E1104F7EADDD0C3B6A99C8F8275685B4E4134271A0D00F3E6D9CCBFB2A5988B7E7164574A3D30231609FCEFE2D5C8BBAEA194877A6D605346392C1F1205

/-- Vector T1, as a step at the bytes of E1. -/
theorem test_step_128_T1 :
    zmm1 (step ((vec ee 0x0F0E0D0C0B0A09080706050403020100 0xFFF0E0D0C0B0A0908070605040302010 0).withFetchWord 56
      0xE4CB42086DF362)) = 0x032A02EA02BA027A014A010A00DA009A := by decide +kernel

/-- Vector T7: merging-masking with mask A5h. -/
theorem test_exec_128_T7 :
    zmm1 (exec (.vdbpsadbw128 { ops 1 2 (.reg 3) 0xE4 with mask := 1 })
      (vec ee 0x0F0E0D0C0B0A09080706050403020100 0xFFF0E0D0C0B0A0908070605040302010 0xA5)) =
      0x032AEEEE02BAEEEEEEEE010AEEEE009A := by decide +kernel

/-- Vector T11: two lanes, immediate 4Eh. -/
theorem test_exec_256_T11 :
    zmm1 (exec (.vdbpsadbw256 (ops 1 2 (.reg 3) 0x4E)) (vec ee t13a t13b 0)) =
      0x027201E8016E00CC008800BC008000B4008800BC008000B401F801C4020001CC := by decide +kernel

/-- Vector T12: zeroing-masking with mask 0F0Fh. -/
theorem test_exec_256_T12 :
    zmm1 (exec (.vdbpsadbw256 { ops 1 2 (.reg 3) 0x4E with mask := 1, zeroing := true }) (vec ee t13a t13b 0x0F0F)) =
      0x0000000000000000008800BC008000B4000000000000000001F801C4020001CC := by decide +kernel

/-- Vector T13: four lanes, immediate 93h. -/
theorem test_exec_512_T13 :
    zmm1 (exec (.vdbpsadbw512 (ops 1 2 (.reg 3) 0x93)) (vec ee t13a t13b 0)) =
      0x00C8009400D0009C0048008C009A00E400B8016401E8027C0286023C020002640238026C0230026400D8007C008000200048001C0050002000FA01880226029C := by
  decide +kernel

/-- Memory that holds bytes 0 to 63 at addresses 0 to 63. -/
def bytes64 : Memory := (List.range 64).map fun i => (i, BitVec.ofNat 8 i)

/-- The value those bytes are, least significant first. -/
def bytes64Value : VecVal := pack 8 (fun i => BitVec.ofNat 8 i) 64

/-- The 512-bit form reads its memory operand little-endian: the bytes 0 to 63 at address 0 give what a register
that holds them gives (20 R50). -/
theorem test_exec_512_memory_operand :
    zmm1 (exec (.vdbpsadbw512 (ops 1 2 (.mem (.base 0 .none)) 0x93)) { vec ee t13a t13b 0 with mem := bytes64 }) =
      zmm1 (exec (.vdbpsadbw512 (ops 1 2 (.reg 3) 0x93)) (vec ee t13a bytes64Value 0)) := by decide +kernel

/-! Witnesses: for every statement with hypotheses, states and operands that meet them. -/

/-- The instruction xmm1, xmm2, [rax]. -/
abbrev memOps : Operands := ops 1 2 (.mem (.base 0 .none)) 0xE4

/-- The same through [rsp], whose segment is SS. -/
abbrev stackOps : Operands := ops 1 2 (.mem (.sib 4 4 0 .none)) 0xE4

/-- The start state with a value in rax and rsp. -/
def withRax (v : BitVec 64) : State := { State.reset with gpr := #v[v, 0, 0, 0, v, 0, 0, 0, 0, 0, 0, 0, 0, 0, 0, 0] }

/-- The start state in protected mode with a 32-bit code segment. -/
def prot : State := { State.reset with efer := 0, csL := false, csD := true }

/-- The start state with plain memory at addresses 0 to 63. -/
def withBytes : State := { State.reset with mem := bytes64 }

/-- A table that faults the reads of linear address 0 to 7 with code 4, at every level but only level 0 here. -/
def withPaging : State :=
  { State.reset with params :=
      { Params.default with translate := [{ first := 0, last := 7, access := .read, cpl := 0, answer := .fault 4 }] } }

/-- Alignment checking on, at level 3, with rax = 1. -/
def withAlign : State :=
  { withRax 1 with params := { Params.default with acCheckVector := true }, cpl := 3, cr0 := 0x40001, rflags := 0x40000 }

theorem witness_wf_Mode64 : (Instr.vdbpsadbw128 memOps).wf = true := by decide

theorem witness_wf_32BitModes :
    is32 .prot32 ∧ (Instr.vdbpsadbw128 memOps).wf = true ∧ (Instr.vdbpsadbw128 memOps).fits32 = true := by
  refine ⟨.inr rfl, ?_, ?_⟩ <;> decide

/-- Bytes that decode: for DecodedIsWellFormed, DecodedLength, DecodeReadsOwnBytesOnly and DecodedMatchesTableRow, in
Mode64 with the longest form and in a 32-bit mode. -/
theorem witness_decoded :
    dec64 [0x26, 0x67, 0x62, 0xF3, 0x6D, 0x08, 0x42, 0x8C, 0x85, 1, 0, 0, 0x80, 0x1B] =
      .got (.vdbpsadbw128 { ops 1 2 (.mem (.sib 5 0 2 (.d32 0x80000001))) 0x1B with prefixes := ⟨some .es, true⟩ }) [] ∧
    decode .compat32 true [0x62, 0xF3, 0x6D, 0x08, 0x42, 0x08, 0xE4, 0x90] = .got (.vdbpsadbw128 memOps) [0x90] := by
  decide

theorem witness_PrefixOrderIsFree : isSegPrefix 0x65#8 = true := by decide

/-- One witness for each row of 30 R115: `L'L`, b, W, z without aaa, P0[3:2], P1[2]. -/
theorem witness_ReservedVariantsRaiseUd :
    (thisOpcode 0xF3 0x6D 0x42 ∧ noRX 0xF3) ∧ reservedVariant 0xF3 0x6D 0x68 ∧ reservedVariant 0xF3 0x6D 0x18 ∧
    reservedVariant 0xF3 0xED 0x08 ∧ reservedVariant 0xF3 0x6D 0x88 ∧
    (thisOpcode 0xF7 0x6D 0x42 ∧ reservedVariant 0xF7 0x6D 0x08) ∧
    (thisOpcode 0xF3 0x69 0x42 ∧ reservedVariant 0xF3 0x69 0x08) := by
  unfold thisOpcode noRX reservedVariant
  refine ⟨?_, ?_, ?_, ?_, ?_, ?_, ?_⟩ <;> decide

/-- A forbidden prefix among admitted ones, the REX bytes at both ends, and state conditions that are not met. -/
theorem witness_forbidden_prefix_and_rex :
    (∀ b ∈ [0x65#8, 0x66#8], isSegPrefix b = true ∨ b = 0x67#8 ∨ isForbidden b = true) ∧
    prefixesOnce [0x65#8, 0x66#8] ∧ (∃ b ∈ [0x65#8, 0x66#8], isForbidden b = true) ∧
    (admitted [0x65#8] ∧ 0x40 ≤ (0x40#8).toNat ∧ (0x4F#8).toNat ≤ 0x4F) ∧ udCondition .v128 State.hardReset := by
  unfold admitted prefixesOnce udCondition
  refine ⟨?_, ?_, ?_, ?_, ?_⟩ <;> decide

/-- A state whose next bytes are a #UD variant (vector U1). -/
theorem witness_step_at_ud : (State.reset.withFetchWord 56 0xE4CB42186DF362).decoded = .ud := by decide +kernel

/-- Vector U19, and rip-relative with `X` = 1, at the bounds of mod and rm. -/
theorem witness_XWithoutSibRefused :
    admitted [] ∧ thisOpcode 0xB3 0x6D 0x42 ∧ ¬ reservedVariant 0xB3 0x6D 0x08 ∧ (0xB3#8).getLsbD 6 = false ∧
    ((0x05#8).toNat < 192 ∧ (0x05#8).toNat % 8 ≠ 4) ∧ ((0xBF#8).toNat < 192 ∧ (0xBF#8).toNat % 8 ≠ 4) := by
  unfold thisOpcode reservedVariant admitted prefixesOnce
  decide

/-- Both ways into 16-bit addressing (vector U20 and a 16-bit code segment). -/
theorem witness_SixteenBitAddressingRefused :
    is32 .prot32 ∧ admitted [0x67#8] ∧ admitted [] ∧ noRX 0xF3 ∧ thisOpcode 0xF3 0x6D 0x42 ∧
    ¬ reservedVariant 0xF3 0x6D 0x08 ∧ 0x67#8 ∈ [0x67#8] := by
  unfold is32 admitted prefixesOnce noRX thisOpcode reservedVariant
  decide

/-- BOUND's bytes, and vector U21. -/
theorem witness_ExtensionBitsIn32BitModes :
    is32 .compat32 ∧ admitted [0x36#8] ∧ ¬ noRX 0x73 ∧ noRX 0xD3 ∧ thisOpcode 0xD3 0x6D 0x42 ∧
    ¬ reservedVariant 0xD3 0x6D 0x08 ∧ 0x67#8 ∉ [0x36#8] ∧ ¬ plain32 0xD3 0x6D 0x08 := by
  unfold is32 admitted prefixesOnce noRX thisOpcode reservedVariant plain32
  decide

/-- Two segment overrides, and two 67h. -/
theorem witness_RepeatedPrefixesRefused :
    (∀ b ∈ [0x26#8, 0x67#8, 0x65#8], isSegPrefix b = true ∨ b = 0x67#8) ∧ ¬ prefixesOnce [0x26#8, 0x67#8, 0x65#8] ∧
    (∀ b ∈ [0x67#8, 0x67#8], isSegPrefix b = true ∨ b = 0x67#8) ∧ ¬ prefixesOnce [0x67#8, 0x67#8] := by
  unfold prefixesOnce
  decide

/-- A NOP byte, a REX byte outside Mode64, another opcode byte (vector U17), and prefixes with a forbidden one. -/
theorem witness_OtherBytesRefused :
    (∀ b ∈ [0x67#8, 0xF2#8, 0x65#8], isSegPrefix b = true ∨ b = 0x67#8 ∨ isForbidden b = true) ∧
    prefixesOnce [0x67#8, 0xF2#8, 0x65#8] ∧ (isSegPrefix 0x90 = false ∧ isForbidden 0x90 = false) ∧
    (isSegPrefix 0x40 = false ∧ isForbidden 0x40 = false ∧
      ¬ ((Mode.prot32 : Mode) = .mode64 ∧ 0x40 ≤ (0x40#8).toNat ∧ (0x40#8).toNat ≤ 0x4F)) ∧
    ¬ thisOpcode 0xF3 0x6D 0x43 ∧ 0x40 ≤ (0x48#8).toNat ∧ (0x48#8).toNat ≤ 0x4F := by
  unfold prefixesOnce thisOpcode
  decide

/-- Ready for each form, in Mode64 and in protected mode. -/
theorem witness_ready :
    ready .v128 State.reset ∧ ready .v256 State.reset ∧ ready .v512 State.reset ∧ ready .v128 prot := by
  unfold ready udCondition
  decide

/-- #NM with `cr0.TS` = 1 (vector U11), and #UD before it (vector U12). -/
theorem witness_NmExactlyOnTaskSwitched :
    (¬ udCondition .v128 { State.reset with cr0 := 9 } ∧ { State.reset with cr0 := 9 }.cr0.getLsbD 3 = true) ∧
    udCondition .v128 { State.reset with cr0 := 9, cr4 := 0 } := by
  unfold udCondition
  decide

/-- Vectors U13 and U15: a non-canonical operand outside and in SS. -/
theorem test_segment_faults_U13_U15 :
    faultOf (exec (.vdbpsadbw128 memOps) (withRax 0x0000800000000000)) = some .gp ∧
    faultOf (exec (.vdbpsadbw128 stackOps) (withRax 0x0000800000000000)) = some .ss := by decide +kernel

/-- The last canonical address whose operand ends at the hole, and the first byte past it (vector U14). -/
theorem witness_SegmentLevelFaultsExactly :
    segmentBad .v128 memOps (withRax 0x00007FFFFFFFFFF8) (.base 0 .none) ∧
    ¬ segmentBad .v128 memOps (withRax 0x00007FFFFFFFFFF0) (.base 0 .none) ∧
    segmentBad .v128 memOps { prot with seg := { prot.seg with ds := ⟨0, [⟨0, 0xFFFFFFFF, 16⟩]⟩ } } (.base 0 .none) ∧
    operandSeg (withRax 0) noPfx (.base 0 .none) ≠ .ss ∧ operandSeg (withRax 0) noPfx (.sib 4 4 0 .none) = .ss := by
  unfold segmentBad isCanonical checkDenies
  decide +kernel

/-- Bytes 0 to 7 of the operand fault, the last one included. -/
theorem witness_PageFaultExactly :
    ready .v128 withPaging ∧ ¬ segmentBad .v128 memOps withPaging (.base 0 .none) ∧
    ¬ operandWraps .v128 memOps withPaging (.base 0 .none) ∧
    byteFaults .v128 memOps withPaging (.base 0 .none) 7 4 := by
  refine ⟨?_, ?_, ?_, rfl⟩
  · unfold ready udCondition; decide
  · unfold segmentBad isCanonical checkDenies; decide +kernel
  · unfold operandWraps; decide +kernel

/-- #PF needs no witness of its conclusion but this one: the step of the state above raises one. -/
theorem test_page_fault :
    (match faultOf (exec (.vdbpsadbw128 memOps)
        { withPaging with params := { Params.default with translate := [⟨7, 7, .read, 0, .fault 4⟩] } }) with
      | some (.pf c a) => c == 4 && a == 7
      | _ => false) = true := by decide +kernel

theorem witness_AlignmentCheckExactly :
    ready .v128 withAlign ∧ ¬ segmentBad .v128 memOps withAlign (.base 0 .none) ∧
    ¬ operandWraps .v128 memOps withAlign (.base 0 .none) ∧ alignmentBad .v128 memOps withAlign (.base 0 .none) ∧
    faultOf (exec (.vdbpsadbw128 memOps) withAlign) = some .ac := by
  refine ⟨?_, ?_, ?_, ?_, ?_⟩
  · unfold ready udCondition; decide
  · unfold segmentBad isCanonical checkDenies; decide +kernel
  · unfold operandWraps; decide +kernel
  · unfold alignmentBad; decide +kernel
  · decide +kernel

/-- The last operand that ends at the top, and the first that wraps. -/
theorem witness_WrappingOperandRefused :
    ready .v128 (withRax 0xFFFFFFFFFFFFFFF1) ∧
    ¬ segmentBad .v128 memOps (withRax 0xFFFFFFFFFFFFFFF1) (.base 0 .none) ∧
    operandWraps .v128 memOps (withRax 0xFFFFFFFFFFFFFFF1) (.base 0 .none) ∧
    ¬ operandWraps .v128 memOps (withRax 0xFFFFFFFFFFFFFFF0) (.base 0 .none) := by
  refine ⟨?_, ?_, ?_, ?_⟩
  · unfold ready udCondition; decide
  · unfold segmentBad isCanonical checkDenies; decide +kernel
  · unfold operandWraps; decide +kernel
  · unfold operandWraps; decide +kernel

/-- The bytes 0 to 63 are plain; the operand at 56 has byte 8 outside. -/
def atEdge : State := { withRax 56 with mem := bytes64 }

theorem witness_NonPlainOperandRefused :
    ready .v128 atEdge ∧ ¬ segmentBad .v128 memOps atEdge (.base 0 .none) ∧
    ¬ operandWraps .v128 memOps atEdge (.base 0 .none) ∧
    ¬ alignmentBad .v128 memOps atEdge (.base 0 .none) ∧ byteMapsTo .v128 memOps atEdge (.base 0 .none) 8 64 ∧
    atEdge.mem.read 64 = none ∧ (∀ k < 16, ∀ code, ¬ byteFaults .v128 memOps atEdge (.base 0 .none) k code) ∧
    refusalIn (exec (.vdbpsadbw128 memOps) atEdge) = some .notPlainMemory := by
  refine ⟨?_, ?_, ?_, ?_, rfl, ?_, ?_, ?_⟩
  · unfold ready udCondition; decide
  · unfold segmentBad isCanonical checkDenies; decide +kernel
  · unfold operandWraps; decide +kernel
  · unfold alignmentBad; decide +kernel
  · decide +kernel
  · intro k _ code h
    cases h
  · decide +kernel

/-- A fault of each kind the data cannot change: here #GP(0) under an all-zero mask (vector U16). -/
theorem witness_FaultsIndependentOfData :
    (∀ m, memOps.src2 = .mem m →
      operandAddr .v128 memOps { withRax 0x0000800000000000 with rip := 7, mxcsr := 1, mem := [] } m =
        operandAddr .v128 memOps (withRax 0x0000800000000000) m) ∧
    faultOf (exec (formInstr .v128 { memOps with mask := 1 }) (withRax 0x0000800000000000)) = some .gp := by
  refine ⟨?_, by decide +kernel⟩
  intro m h
  cases h
  decide +kernel

theorem witness_RegisterFormsComplete :
    (ops 1 2 (.reg 3) 0).src2 = .reg 3 ∧ ready .v128 State.reset ∧ ready .v256 State.reset ∧ ready .v512 State.reset :=
  ⟨rfl, witness_ready.1, witness_ready.2.1, witness_ready.2.2.1⟩

/-- The largest operand, 64 plain bytes, meets the hypotheses of the memory forms. -/
theorem witness_MemoryFormsComplete :
    memOps.src2 = .mem (.base 0 .none) ∧ ready .v512 withBytes ∧ ¬ segmentBad .v512 memOps withBytes (.base 0 .none) ∧
    ¬ operandWraps .v512 memOps withBytes (.base 0 .none) ∧ ¬ alignmentBad .v512 memOps withBytes (.base 0 .none) ∧
    ∀ n < 64, ∃ pa, byteMapsTo .v512 memOps withBytes (.base 0 .none) n pa ∧
      withBytes.mem.read pa = some (byteAt bytes64Value n) := by
  refine ⟨rfl, ?_, ?_, ?_, ?_, ?_⟩
  · unfold ready udCondition; decide
  · unfold segmentBad isCanonical checkDenies; decide +kernel
  · unfold operandWraps; decide +kernel
  · unfold alignmentBad; decide +kernel
  · have h : ∀ n < 64, withBytes.mem.read (0 + n) = some (byteAt bytes64Value n) := by decide +kernel
    exact fun n hn => ⟨0 + n, rfl, h n hn⟩

/-- A next state, for DestinationFollowsRules, OnlyDestinationAndIpChange, IpAdvancesByLength, UpperBitsZeroed, ResultRange and, the mask bits
being 0 under aaa = 1, MaskingCornerCases with both masking kinds. -/
theorem witness_exec_next :
    (∃ t, exec (.vdbpsadbw128 (ops 1 2 (.reg 3) 0)) State.reset = .next t) ∧
    (∃ t, exec (.vdbpsadbw256 { ops 1 2 (.reg 3) 0 with mask := 1 }) State.reset = .next t) ∧
    (∃ t, exec (.vdbpsadbw512 { ops 1 2 (.reg 3) 0 with mask := 1, zeroing := true }) State.reset = .next t) ∧
    (∀ j < 32, (State.reset.readK 1).getLsbD j = false) ∧
    (∀ j < 32, ((vec 0 0 0 0xFFFFFFFF).readK 1).getLsbD j = true) := by
  refine ⟨⟨_, rfl⟩, ⟨_, rfl⟩, ⟨_, rfl⟩, ?_, ?_⟩ <;> decide +kernel

/-- A mask register that differs at bit 8 only, for the 128-bit form. -/
theorem witness_OpmaskBitsAboveKlUnread :
    ∀ j < 8, ({ State.reset with k := #v[1, 0x100, 3, 0, 0, 0, 0, 0] }.readK 1).getLsbD j =
      (State.reset.readK 1).getLsbD j := by decide +kernel

/-- Controls that differ in EM, in a status flag and in a reserved bit only. -/
theorem witness_ControlsOnlyGate :
    sameControls State.reset
      { State.reset with cr0 := 0x5, cr4 := 0x40001, xcr0 := 0xE6, efer := 0x401, rflags := 0x41, mxcsr := 0x1F80 } := by
  unfold sameControls
  decide +kernel

theorem witness_ShuffleCopiesSelectedBytes : 15 < operandBytes .v128 ∧ 63 < operandBytes .v512 := by decide

theorem witness_ResultWordFootprint :
    31 < resultWords .v512 ∧ (∀ k < 4, byteAt (0 : VecVal) (56 + 4 + k) = byteAt (0xFF : VecVal) (56 + 4 + k)) ∧
    ∀ k < 4, byteAt (0 : VecVal) (56 + 3 + k) = byteAt (BitVec.ofNat 512 (2 ^ 504)) (56 + 3 + k) := by decide +kernel

theorem witness_LanesIndependent :
    16 * 3 < operandBytes .v512 ∧ laneAt (0 : VecVal) 3 = laneAt (0xFF : VecVal) 3 := by decide +kernel

/-- Mode64 with and without 67h, and protected mode; real-address mode for the other terms. -/
theorem witness_EffectiveAddress :
    State.reset.mode = .mode64 ∧ memOps.prefixes.addrSize = false ∧ is32 prot.mode ∧ prot.csD = true ∧
    (⟨none, true⟩ : Prefixes).addrSize = true ∧ State.hardReset.mode = .real := by
  unfold is32
  decide

theorem witness_OperandSegment :
    (⟨some .fs, false⟩ : Prefixes).seg = some .fs ∧ prot.mode ≠ .mode64 ∧ State.reset.mode = .mode64 ∧ Seg.es ≠ .fs := by
  decide

/-- Bytes that decode where step fetches. -/
theorem witness_StepRunsDecodedInstruction :
    (match decode .mode64 false (State.reset.withFetchWord 56 0xE4CB42086DF362).fetched with
      | .got i _ => i == .vdbpsadbw128 (ops 1 2 (.reg 3) 0xE4)
      | _ => false) = true := by decide +kernel

/-- Bytes the decoder refuses under each of its five names. -/
theorem witness_step_at_each_refusal :
    (State.reset.withFetchWord 56 0xE4CB43086DF362).decoded = .refused .notThisInstruction ∧
    (prot.withFetchWord 64 0xE4CB42086DF36267).decoded = .refused .addr16 ∧
    (prot.withFetchWord 56 0xE4CB42086DD362).decoded = .refused .evex32 ∧
    (State.reset.withFetchWord 72 0xE4CB42086DF3626767).decoded = .refused .prefixes ∧
    (State.reset.withFetchWord 56 0xE40042086DB362).decoded = .refused .xNoSib := by decide +kernel

/-- In a 32-bit mode 62h and 00h are BOUND (30 R110): the decoder asks for no third byte (R113), in Mode64 it does. -/
theorem test_decode_bound_reads_no_further :
    decode .compat32 true [0x62, 0x00] = .refused .notThisInstruction ∧ decode .mode64 true [0x62, 0x00] = .more := by
  decide

/-- The step that finds these two bytes last in memory is refused under that name. -/
theorem test_step_bound_at_end_of_memory :
    step { prot with mem := [(0, 0x62), (1, 0x00)] } = .refused .notThisInstruction := by rfl

/-- 15 plain bytes that are all forbidden prefixes. -/
def prefixBytes : State := { State.reset with mem := (List.range 15).map fun a => (a, 0x66) }

/-- The bytes run out for each of the three reasons: no plain memory, a non-canonical address (20 R64), and 15 bytes
without an instruction (30 R112). -/
theorem witness_StepRefusesUndecodedBytes :
    (State.reset.decoded = .more ∧ instrOutside State.reset 0) ∧
    ({ State.reset with rip := 0x0000800000000000 }.decoded = .more ∧
      instrFaults { State.reset with rip := 0x0000800000000000 } 0) ∧
    (prefixBytes.decoded = .more ∧ ∀ j < 15, ∃ b, instrByte prefixBytes j b) := by
  refine ⟨⟨by decide +kernel, .inr ⟨?_, 0, rfl, rfl⟩⟩, ⟨by decide +kernel, ?_⟩, by decide +kernel, ?_⟩
  · unfold fetchReaches isCanonical
    decide +kernel
  · unfold instrFaults isCanonical
    exact ⟨by decide +kernel, .inl (by decide +kernel)⟩
  · have h : ∀ j < 15, fetchReaches prefixBytes j ∧ prefixBytes.mem.read (fetchLinear prefixBytes j) = some 0x66#8 := by
      unfold fetchReaches isCanonical
      decide +kernel
    exact fun j hj => ⟨0x66, (h j hj).1, _, rfl, (h j hj).2⟩

theorem witness_FetchReadsMemoryAtIp :
    fetchReaches withBytes 14 ∧ fetchLinear withBytes 14 = 14 ∧ withBytes.params.translate = [] ∧
    withBytes.mem.read 14 = some 14 ∧ withBytes.mem.read 64 = none := by
  unfold fetchReaches isCanonical
  decide +kernel

/-- Protected mode with CS base FFFFFFFFh, eip = 0 and one byte at 0. -/
def wrapping : State := { prot with seg := { prot.seg with cs := ⟨0xFFFFFFFF, []⟩ }, mem := [(0, 0x62)] }

/-- The second instruction byte of `wrapping` is fetched at 0 (log 26). -/
theorem test_fetch_wraps_in_32_bit_mode :
    fetchReaches wrapping 1 ∧ fetchLinear wrapping 1 = 0 ∧ (wrapping.fetchByte 1).toOption = some 0x62 := by
  unfold fetchReaches isCanonical
  decide +kernel

/-- The bytes of the longest form stand where step fetches, in Mode64; a short form stands so in protected mode. -/
theorem witness_PlacedInstructionRuns :
    (∀ n < 7, (State.reset.withFetchWord 56 0xE4CB42086DF362).fetchByte n =
      .ok ((encode (.vdbpsadbw128 (ops 1 2 (.reg 3) 0xE4))).getD n 0)) ∧
    (∀ n < 7, (prot.withFetchWord 56 0xE4CB42086DF362).fetchByte n =
      .ok ((encode (.vdbpsadbw128 (ops 1 2 (.reg 3) 0xE4))).getD n 0)) ∧
    prot.mode = .prot32 ∧ prot.csD = true ∧ (Instr.vdbpsadbw128 (ops 1 2 (.reg 3) 0xE4)).fits32 = true := by
  refine ⟨?_, ?_, ?_, ?_, ?_⟩
  · intro n hn
    interval_cases n <;> rfl
  · intro n hn
    interval_cases n <;> rfl
  all_goals decide

/-- A state that meets the invariant and steps, with the launch premises of 70 R211. -/
theorem witness_step_next :
    inv (State.reset.withFetchWord 56 0xE4CB42086DF362) ∧
    (∃ t, step (State.reset.withFetchWord 56 0xE4CB42086DF362) = .next t) ∧
    Safety.launch .v128 0 7 (State.reset.withFetchWord 56 0xE4CB42086DF362) = true := by
  refine ⟨?_, ⟨_, rfl⟩, ?_⟩
  · unfold inv
    decide +kernel
  · decide +kernel

theorem witness_LaunchPremisesKept :
    Safety.modeOk prot = true ∧ Safety.enabled .v128 prot = true ∧ Safety.modeOk State.reset = true ∧
    Safety.enabled .v512 State.reset = true ∧ Safety.noDebug State.reset = true := by decide

/-- A launch state may not have the single-step flag set (70 R211), nor xcr0 bit 0 clear (92 D20). -/
theorem test_launch_asks_noDebug_and_xcr0 :
    Safety.launch .v128 0 0 State.reset = true ∧
    Safety.launch .v128 0 0 { State.reset with rflags := 0x100 } = false ∧
    Safety.launch .v128 0 0 { State.reset with xcr0 := 0xE6 } = false := by decide

end Sys2Proof.Tests
end

/-! Reading back what the encoder writes (30 R80 to R95). -/

namespace Sys2Proof

open Sys2Proof.Claims

@[simp] theorem field_modrmByte_mod (mod : BitVec 2) (reg rm : BitVec 3) : field (modrmByte mod reg rm) 6 2 = mod := by
  revert mod reg rm
  decide

@[simp] theorem field_modrmByte_reg (mod : BitVec 2) (reg rm : BitVec 3) : field (modrmByte mod reg rm) 3 3 = reg := by
  revert mod reg rm
  decide

@[simp] theorem field_modrmByte_rm (mod : BitVec 2) (reg rm : BitVec 3) : field (modrmByte mod reg rm) 0 3 = rm := by
  revert mod reg rm
  decide

/-- A general register number is its extension bit and its low three bits (30 R84). -/
theorem regNum4_split (r : BitVec 4) : regNum4 (r.getLsbD 3) (field r 0 3) = r := by
  revert r
  decide

/-- A vector register number is its two extension bits and its low three bits (30 R84). -/
theorem regNum5_split (r : BitVec 5) : regNum5 (r.getLsbD 4) (r.getLsbD 3) (field r 0 3) = r := by
  revert r
  decide

theorem low3Is_eq (r : BitVec 4) (v : BitVec 3) : low3Is r v = (field r 0 3 == v) := by
  revert r v
  decide

theorem Disp.mod_eq_zero_iff (d : Disp) : d.mod = 0#2 ↔ d = .none := by
  cases d <;> simp [Disp.mod]

theorem Disp.mod_ne_three (d : Disp) : d.mod ≠ 3#2 := by
  cases d <;> simp [Disp.mod]

/-- The ModRM byte of a well-formed `[base]` form selects neither SIB nor the form without a base (30 R100). -/
theorem MemOperand.wf_base {b : BitVec 4} {d : Disp} (h : (MemOperand.base b d).wf = true) :
    field b 0 3 ≠ 4#3 ∧ ¬ (d.mod = 0#2 ∧ field b 0 3 = 5#3) := by
  simpa [MemOperand.wf, low3Is_eq, Disp.mod_eq_zero_iff, imp_iff_not_or] using h

/-- The SIB byte of a well-formed form with a base does not select the form without one (30 R101). -/
theorem MemOperand.wf_sib {b i : BitVec 4} {s : BitVec 2} {d : Disp} (h : (MemOperand.sib b i s d).wf = true) :
    ¬ (d.mod = 0#2 ∧ field b 0 3 = 5#3) := by
  simpa [MemOperand.wf, low3Is_eq, Disp.mod_eq_zero_iff, imp_iff_not_or] using h

/-- Operand 3 reads back from its own bytes under its own extension bits, and `ModRM.reg` is free for DEST
(30 R92, R93, R100, R101). -/
theorem Src2.encode_reads_back {x : Src2} {p0 : Byte} (hwf : x.wf = true) (hx : p0.getLsbD 6 = !x.xBit)
    (hb : p0.getLsbD 5 = !x.bBit) (reg : BitVec 3) :
    ∃ modrm tail, x.encode reg = modrm :: tail ∧ field modrm 3 3 = reg ∧
      ∀ rest, readSrc2Field p0 modrm (tail ++ rest) = .got x rest := by
  obtain r | (⟨b, d⟩ | d | ⟨b, i, s, d⟩ | ⟨i, s, d⟩) := x <;>
    refine ⟨_, _, rfl, field_modrmByte_reg .., fun rest => ?_⟩ <;>
    simp only [readSrc2Field, readSib, hx, hb, Bool.not_not, Src2.xBit, Src2.bBit, field_modrmByte_mod,
      field_modrmByte_rm, field_modrmByte_reg, regNum4_split, regNum5_split, List.cons_append, readByte_cons,
      Parsed.bind_got]
  case reg => simp
  case mem.base =>
    obtain ⟨h4, h5⟩ := MemOperand.wf_base hwf
    simp [d.mod_ne_three, h4, h5]
  case mem.ripDisp => simp
  case mem.sib =>
    have h5 := MemOperand.wf_sib (i := i) (s := s) hwf
    simp only [if_neg h5]
    simp [d.mod_ne_three]
  case mem.sibNoBase => simp

/-! The bits of the three payload bytes (30 R82). -/

section
variable (o : Operands) (vl : VecLen)

theorem encodeP0_bits : (encodeP0 o).getLsbD 7 = !o.dest.getLsbD 3 ∧ (encodeP0 o).getLsbD 6 = !o.src2.xBit ∧
    (encodeP0 o).getLsbD 5 = !o.src2.bBit ∧ (encodeP0 o).getLsbD 4 = !o.dest.getLsbD 4 ∧
    field (encodeP0 o) 2 2 = 0#2 ∧ field (encodeP0 o) 0 2 = 3#2 := by
  unfold encodeP0
  generalize o.dest.getLsbD 3 = a, o.src2.xBit = b, o.src2.bBit = c, o.dest.getLsbD 4 = d
  revert a b c d
  decide

theorem encodeP1_bits : (encodeP1 o).getLsbD 7 = false ∧ (encodeP1 o).getLsbD 6 = !o.src1.getLsbD 3 ∧
    field (encodeP1 o) 3 4 = ~~~(field o.src1 0 4) ∧ (encodeP1 o).getLsbD 2 = true ∧ field (encodeP1 o) 0 2 = 1#2 := by
  unfold encodeP1
  generalize o.src1 = r
  revert r
  decide

theorem encodeP2_bits : (encodeP2 vl o).getLsbD 7 = o.zeroing ∧ field (encodeP2 vl o) 5 2 = vl.ll ∧
    (encodeP2 vl o).getLsbD 4 = false ∧ (encodeP2 vl o).getLsbD 3 = !o.src1.getLsbD 4 ∧
    field (encodeP2 vl o) 0 3 = o.mask := by
  unfold encodeP2
  generalize o.zeroing = z, vl.ll = l, o.src1.getLsbD 4 = v, o.mask = a
  revert z l v a
  decide

/-- P0, P1 and the opcode byte of an encoding are of this opcode (30 R115). -/
theorem isVdbpsadbw_encode : isVdbpsadbw (encodeP0 o) (encodeP1 o) 0x42#8 = true := by
  obtain ⟨-, -, -, -, -, hmm⟩ := encodeP0_bits o
  obtain ⟨-, -, -, -, hpp⟩ := encodeP1_bits o
  simp [isVdbpsadbw, hmm, hpp]

/-- A well-formed instruction is encoded in no reserved variant (30 R115). -/
theorem udVariant_encode (h : o.wf = true) : udVariant (encodeP0 o) (encodeP1 o) (encodeP2 vl o) = false := by
  obtain ⟨-, -, -, -, h0, -⟩ := encodeP0_bits o
  obtain ⟨h17, -, -, h12, -⟩ := encodeP1_bits o
  obtain ⟨hz, hll, h24, -, haaa⟩ := encodeP2_bits o vl
  have hmask : (o.zeroing && o.mask == 0#3) = false := Bool.not_eq_eq_eq_not.mp (Bool.and_eq_true_iff.1 h).2
  have hl3 : (vl.ll == 3#2) = false := by cases vl <;> rfl
  rw [udVariant, h0, h17, h12, hz, hll, h24, haaa, hmask, hl3]
  rfl

end

/-- Operand 3, where the 32-bit modes can name it, needs no extension bit (30 R106, R110). -/
theorem Src2.fits32_bits {x : Src2} (h : x.fits32 = true) : x.xBit = false ∧ x.bBit = false := by
  obtain r | (⟨b, d⟩ | d | ⟨b, i, s, d⟩ | ⟨i, s, d⟩) := x <;>
    simp only [Src2.fits32, MemOperand.fits32, vecFits32, gprFits32, Bool.and_eq_true, Bool.not_eq_true'] at h <;>
    simp only [Src2.xBit, Src2.bBit, h, and_self]

/-- An instruction that the 32-bit modes can name needs no extension bit, and has no 67h (30 R109, R110). -/
theorem Instr.fits32_bits {i : Instr} (h : i.fits32 = true) :
    i.operands.dest.getLsbD 4 = false ∧ i.operands.dest.getLsbD 3 = false ∧ i.operands.src1.getLsbD 4 = false ∧
      i.operands.src1.getLsbD 3 = false ∧ i.operands.src2.xBit = false ∧ i.operands.src2.bBit = false ∧
      i.operands.prefixes.addrSize = false := by
  simp only [Instr.fits32, vecFits32, Bool.and_eq_true, Bool.not_eq_true'] at h
  obtain ⟨⟨⟨⟨hd4, hd3⟩, hs4, hs3⟩, hsrc2⟩, haddr⟩ := h
  obtain ⟨hx, hb⟩ := Src2.fits32_bits hsrc2
  exact ⟨hd4, hd3, hs4, hs3, hx, hb, haddr⟩

/-- The encoding of an instruction that the 32-bit modes can name has the extension bits spelled as they ask
(30 R110). -/
theorem canonical32_encode {i : Instr} (vl : VecLen) (h : i.fits32 = true) :
    canonical32 (encodeP0 i.operands) (encodeP1 i.operands) (encodeP2 vl i.operands) = true ∧
      field (encodeP0 i.operands) 6 2 = 3#2 := by
  obtain ⟨hd4, hd3, hs4, hs3, hx, hb, -⟩ := Instr.fits32_bits h
  obtain ⟨-, h16, -, -, -⟩ := encodeP1_bits i.operands
  obtain ⟨-, -, -, h23, -⟩ := encodeP2_bits i.operands vl
  have h0 : encodeP0 i.operands = 0xF3#8 := by
    rw [encodeP0, hd4, hd3, hx, hb]
    rfl
  rw [canonical32, h0, h16, h23, hs3, hs4]
  decide

theorem destOf_encode (o : Operands) {modrm : Byte} (h : field modrm 3 3 = field o.dest 0 3) :
    destOf (encodeP0 o) modrm = o.dest := by
  obtain ⟨h7, -, -, h4, -, -⟩ := encodeP0_bits o
  rw [destOf, h7, h4, h, Bool.not_not, Bool.not_not, regNum5_split]

@[simp] theorem src1Of_encode (vl : VecLen) (o : Operands) : src1Of (encodeP1 o) (encodeP2 vl o) = o.src1 := by
  obtain ⟨-, -, hv, -, -⟩ := encodeP1_bits o
  obtain ⟨-, -, -, h3, -⟩ := encodeP2_bits o vl
  rw [src1Of, hv, h3, Bool.not_not]
  generalize o.src1 = r
  revert r
  decide

@[simp] theorem formOf_encode (i : Instr) : formOf i.vecLen.ll i.operands = i := by
  cases i <;> rfl

/-- The operands read back from the bytes that follow the opcode byte (30 R95). -/
theorem readOperands_encode {i : Instr} (hwf : i.wf = true) (rest : List Byte) :
    readOperands i.operands.prefixes (encodeP0 i.operands) (encodeP1 i.operands) (encodeP2 i.vecLen i.operands)
      (i.operands.src2.encode (field i.operands.dest 0 3) ++ i.operands.imm8 :: rest) = .got i rest := by
  obtain ⟨-, hx, hb, -, -, -⟩ := encodeP0_bits i.operands
  obtain ⟨hz, hll, -, -, haaa⟩ := encodeP2_bits i.operands i.vecLen
  obtain ⟨modrm, tail, he, hreg, hread⟩ :=
    Src2.encode_reads_back (Bool.and_eq_true_iff.1 hwf).1 hx hb (field i.operands.dest 0 3)
  rw [he, readOperands, List.cons_append, readByte_cons, Parsed.bind_got, hread, Parsed.bind_got, readByte_cons,
    Parsed.bind_got, destOf_encode _ hreg, src1Of_encode, hz, hll, haaa, formOf_encode]

/-- Decode of encode, in Mode64 for every well-formed instruction and in a 32-bit code segment of a 32-bit mode for
those that can be named there, whatever bytes follow (30 R80 to R95, R110, R113). -/
theorem decode_encode {m : Mode} {csD : Bool} {i : Instr} (hwf : i.wf = true)
    (hm : m = .mode64 ∨ is32 m ∧ csD = true ∧ i.fits32 = true) (rest : List Byte) :
    decode m csD (encode i ++ rest) = .got i rest := by
  have hmode : evexHere m (encodeP0 i.operands) = true ∧ ¬ (m = .real ∨ m = .v86) ∧
      ¬ (m ≠ .mode64 ∧ (i.operands.prefixes.addrSize || !csD) = true) ∧
      ¬ (m ≠ .mode64 ∧
        canonical32 (encodeP0 i.operands) (encodeP1 i.operands) (encodeP2 i.vecLen i.operands) = false) := by
    rcases hm with rfl | ⟨h32, rfl, hfits⟩
    · simp [evexHere]
    · obtain ⟨hcanon, hRX⟩ := canonical32_encode i.vecLen hfits
      obtain ⟨-, -, -, -, -, -, haddr⟩ := Instr.fits32_bits hfits
      rcases h32 with rfl | rfl <;> simp [evexHere, hRX, haddr, hcanon]
  obtain ⟨hevex, hexec, haddr, hcanon⟩ := hmode
  simp only [decode, encode, List.append_assoc, List.cons_append, List.nil_append, scanPrefixes_encode, Parsed.bind_got,
    decodeBody_evex, hevex, if_true, decodeEvex, isVdbpsadbw_encode, udVariant_encode _ _ hwf, hexec, haddr, hcanon,
    readOperands_encode hwf, Bool.not_true, Bool.or_self, Bool.false_eq_true, if_false]

end Sys2Proof

/-! Fetching the bytes of an instruction, and what a step does with what the decoder says (60 R181, 40 R140). -/

namespace Sys2Proof.Machine

open Sys2Proof.Claims

/-- An arithmetic shift leaves only copies of the sign exactly when the number fits below the shift. -/
theorem shiftRight_eq_zero_or_neg_one_iff (x : Int) (n : Nat) :
    x >>> n = 0 ∨ x >>> n = -1 ↔ -(2 : Int) ^ n ≤ x ∧ x < (2 : Int) ^ n := by
  have hpos : (0 : Int) < 2 ^ n := by positivity
  rw [Int.shiftRight_eq_div_pow]
  push_cast
  rw [Int.ediv_eq_iff_of_pos hpos, Int.ediv_eq_iff_of_pos hpos]
  omega

/-- The shift of `canonical` against the range of `isCanonical`, for every LAW (20 R64). -/
theorem canonical_iff (p : Params) (a : Nat) : canonical p.law (BitVec.ofNat 64 a) = true ↔ isCanonical p a := by
  rw [isCanonical, ← shiftRight_eq_zero_or_neg_one_iff, canonical, Bool.or_eq_true, beq_iff_eq, beq_iff_eq,
    ← BitVec.toInt_inj, ← BitVec.toInt_inj, BitVec.toInt_sshiftRight]
  rfl

theorem canonical_eq_false_iff (p : Params) (a : Nat) :
    canonical p.law (BitVec.ofNat 64 a) = false ↔ ¬ isCanonical p a := by
  rw [← canonical_iff, Bool.not_eq_true]

/-! Where an instruction byte is fetched (20 R51, R69). -/

section
variable {s : State} {n : Nat}

/-- The offset that `fetchAddr` uses is the one the statements spell out. -/
theorem State.ip_add (s : State) (n : Nat) : s.ip.toNat + n = fetchOffset s n := by
  unfold State.ip fetchOffset low32
  split
  · rfl
  · simp
    omega

theorem linearAddr_cs (h : fetchOffset s n < s.top) :
    (linearAddr s .cs (BitVec.ofNat 64 (fetchOffset s n))).toNat = fetchLinear s n := by
  unfold linearAddr fetchLinear
  unfold State.top at h
  split at h
  next hm =>
    simp [hm, segBase64]
    omega
  next hm =>
    simp [hm, SegFile.get, low32]
    omega

theorem fetchAddr_of_top_le (h : s.top ≤ fetchOffset s n) : s.fetchAddr n = .error .fetchOutsideMemory := by
  simp [State.fetchAddr, State.ip_add, h]

theorem fetchAddr_of_not_canonical (hoff : fetchOffset s n < s.top) (hm : s.mode = .mode64)
    (h : ¬ isCanonical s.params (fetchOffset s n)) : s.fetchAddr n = .error .fetchFault := by
  simp [State.fetchAddr, State.ip_add, hoff, hm, canonical_eq_false_iff, h]

/-- A byte that is reached is fetched where `Translate` puts it, and faults where `Translate` does (20 R63). -/
theorem fetchAddr_of_reaches (h : fetchReaches s n) : s.fetchAddr n =
    (translate s.params.translate (fetchLinear s n) .fetch s.cpl).mapError fun _ => .fetchFault := by
  obtain ⟨hoff, hcan⟩ := h
  have hoff : fetchOffset s n < s.top := hoff
  have hcan : ¬ (s.mode = .mode64 ∧ canonical s.params.law (BitVec.ofNat 64 (fetchOffset s n)) = false) :=
    fun ⟨hm, hc⟩ => (canonical_eq_false_iff _ _).1 hc (hcan hm)
  rw [State.fetchAddr, State.ip_add, if_neg (by omega), if_neg hcan, linearAddr_cs hoff]
  cases translate s.params.translate (fetchLinear s n) .fetch s.cpl <;> rfl

/-! The outcome of fetching one byte (60 R181). -/

theorem fetchByte_of_instrByte {b : Byte} (h : instrByte s n b) : s.fetchByte n = .ok b := by
  obtain ⟨hreach, pa, htr, hmem⟩ := h
  simp [State.fetchByte, fetchAddr_of_reaches hreach, htr, Except.mapError, hmem]

theorem fetchByte_of_instrOutside (h : instrOutside s n) : s.fetchByte n = .error .fetchOutsideMemory := by
  obtain htop | ⟨hreach, pa, htr, hmem⟩ := h
  · simp [State.fetchByte, fetchAddr_of_top_le htop]
  · simp [State.fetchByte, fetchAddr_of_reaches hreach, htr, Except.mapError, hmem]

theorem fetchByte_of_instrFaults (h : instrFaults s n) : s.fetchByte n = .error .fetchFault := by
  obtain ⟨hoff, ⟨hm, hcan⟩ | ⟨hreach, code, htr⟩⟩ := h
  · simp [State.fetchByte, fetchAddr_of_not_canonical hoff hm hcan]
  · simp [State.fetchByte, fetchAddr_of_reaches hreach, htr, Except.mapError]

end

/-! The bytes fetched, and why there are no more. -/

section
variable {s : State}

/-- Past bytes that could be fetched, the fetch stops as it stops from there. -/
theorem fetchFrom_stop_of_ok (n : Nat) {k i : Nat} (h : ∀ j < k, ∃ b, s.fetchByte (i + j) = .ok b) :
    (s.fetchFrom (k + n) i).2 = (s.fetchFrom n (i + k)).2 := by
  induction k generalizing i with
  | zero => simp
  | succ k ih =>
    obtain ⟨b, hb⟩ := h 0 (by omega)
    have hrest : ∀ j < k, ∃ b, s.fetchByte (i + 1 + j) = .ok b := fun j hj => by
      simpa [Nat.add_assoc, Nat.add_comm 1] using h (j + 1) (by omega)
    rw [Nat.succ_add, State.fetchFrom, show s.fetchByte i = .ok b from hb]
    simpa [Nat.add_assoc, Nat.add_comm 1] using ih hrest

/-- Bytes that can be fetched come first among the bytes fetched. -/
theorem fetchFrom_append {bs : List Byte} {n i : Nat} (hlen : bs.length ≤ n)
    (h : ∀ j b, bs[j]? = some b → s.fetchByte (i + j) = .ok b) : ∃ rest, (s.fetchFrom n i).1 = bs ++ rest := by
  induction bs generalizing n i with
  | nil => exact ⟨_, rfl⟩
  | cons b bs ih =>
    obtain ⟨n, rfl⟩ : ∃ m, n = m + 1 := ⟨n - 1, by simp at hlen; omega⟩
    have hrest : ∀ j c, bs[j]? = some c → s.fetchByte (i + 1 + j) = .ok c := fun j c hj => by
      simpa [Nat.add_assoc, Nat.add_comm 1] using h (j + 1) c hj
    obtain ⟨rest, he⟩ := ih (by simpa using hlen) hrest
    have hb : s.fetchByte i = .ok b := h 0 b rfl
    exact ⟨rest, by simp [State.fetchFrom, hb, he]⟩

/-- Where some byte cannot be fetched, the first such byte says why there are no more. -/
theorem fetchStop_of_error {n : Nat} {r : Refusal} (hn : n < maxLength) (hok : ∀ j < n, ∃ b, s.fetchByte j = .ok b)
    (herr : s.fetchByte n = .error r) : s.fetchStop = r := by
  obtain ⟨m, hm⟩ : ∃ m, maxLength = n + (m + 1) := ⟨maxLength - n - 1, by omega⟩
  rw [State.fetchStop, hm, fetchFrom_stop_of_ok _ fun j hj => (Nat.zero_add j).symm ▸ hok j hj, Nat.zero_add,
    State.fetchFrom, herr]

/-- Where as many bytes as an instruction can have are there, the fetch stops for its length (30 R112). -/
theorem fetchStop_of_ok (hok : ∀ j < maxLength, ∃ b, s.fetchByte j = .ok b) : s.fetchStop = .instructionTooLong :=
  fetchFrom_stop_of_ok 0 fun j hj => (Nat.zero_add j).symm ▸ hok j hj

end

/-! What a step does with what the decoder answers (40 R140). -/

section
variable {s : State}

theorem step_of_got {i : Instr} {rest : List Byte} (h : decode s.mode s.csD s.fetched = .got i rest) :
    step s = exec i s := by
  simp [step, State.decoded, h]

theorem step_of_refused {r : DecodeRefusal} (h : decode s.mode s.csD s.fetched = .refused r) :
    step s = .refused (refusalOf r) := by
  simp [step, State.decoded, h]

theorem step_of_more (h : decode s.mode s.csD s.fetched = .more) : step s = .refused s.fetchStop := by
  simp [step, State.decoded, h]

end

end Sys2Proof.Machine

/-! Scanning past legacy prefixes (30 R111, R115), and what follows them. -/

namespace Sys2Proof

open Sys2Proof.Claims

/-! The classes of bytes the scan tells apart. -/

theorem isSegPrefix_eq (b : Byte) : isSegPrefix b = (segOfByte b).isSome := by
  revert b
  decide

theorem isForbidden_eq (b : Byte) : isForbidden b = forbiddenPrefix b := by
  revert b
  decide

theorem isSegPrefix_excludes {b : Byte} (h : isSegPrefix b = true) : b ≠ 0x67#8 ∧ isForbidden b = false := by
  revert b
  decide

theorem isForbidden_excludes {b : Byte} (h : isForbidden b = true) : isSegPrefix b = false ∧ b ≠ 0x67#8 := by
  revert b
  decide

theorem rexPrefix_iff (m : Mode) (b : Byte) : rexPrefix m b = true ↔ m = .mode64 ∧ 0x40 ≤ b.toNat ∧ b.toNat ≤ 0x4F := by
  have h : ∀ b : Byte, field b 4 4 = 4#4 ↔ 0x40 ≤ b.toNat ∧ b.toNat ≤ 0x4F := by decide
  simp [rexPrefix, h]

/-- 62h is no REX byte. -/
theorem rexPrefix_evex (m : Mode) : rexPrefix m 0x62#8 = false := by
  cases m <;> decide

/-- A REX byte is none of the legacy prefixes. -/
theorem not_prefix_of_rexPrefix {m : Mode} {b : Byte} (h : rexPrefix m b = true) :
    isSegPrefix b = false ∧ b ≠ 0x67#8 ∧ isForbidden b = false := by
  have hb : ∀ b : Byte, field b 4 4 = 4#4 → isSegPrefix b = false ∧ b ≠ 0x67#8 ∧ isForbidden b = false := by decide
  simp only [rexPrefix, Bool.and_eq_true, beq_iff_eq] at h
  exact hb b h.2

/-! One step of the scan for each class. -/

section
variable {m : Mode} {p : Prefixes} {bad : Bool} {b : Byte} {rest : List Byte}

theorem scanPrefixes_seg {sg : Seg} (hb : segOfByte b = some sg) (hp : p.seg = none) :
    scanPrefixes m p bad (b :: rest) = scanPrefixes m { p with seg := some sg } bad rest := by
  simp [scanPrefixes, hb, hp]

theorem scanPrefixes_addrSize (hp : p.addrSize = false) :
    scanPrefixes m p bad (0x67#8 :: rest) = scanPrefixes m { p with addrSize := true } bad rest := by
  simp [scanPrefixes, segOfByte, hp]

theorem scanPrefixes_forbidden (hb : isForbidden b = true) :
    scanPrefixes m p bad (b :: rest) = scanPrefixes m p true rest := by
  obtain ⟨hseg, h67⟩ := isForbidden_excludes hb
  have hseg : segOfByte b = none := by simpa [isSegPrefix_eq] using hseg
  simp [scanPrefixes, hseg, h67, ← isForbidden_eq, hb]

/-- A REX byte ends the scan and spoils the encoding (log 11). -/
theorem scanPrefixes_rex (hb : rexPrefix m b = true) : scanPrefixes m p bad (b :: rest) = .got (p, true) rest := by
  obtain ⟨hseg, h67, hforb⟩ := not_prefix_of_rexPrefix hb
  have hseg : segOfByte b = none := by simpa [isSegPrefix_eq] using hseg
  simp [scanPrefixes, hseg, h67, ← isForbidden_eq, hforb, hb]

theorem scanPrefixes_of_not_prefix (hseg : isSegPrefix b = false) (h67 : b ≠ 0x67#8) (hforb : isForbidden b = false)
    (hrex : rexPrefix m b = false) : scanPrefixes m p bad (b :: rest) = .got (p, bad) (b :: rest) := by
  have hseg : segOfByte b = none := by simpa [isSegPrefix_eq] using hseg
  simp [scanPrefixes, hseg, h67, ← isForbidden_eq, hforb, hrex]

end

/-- The scan goes past legacy prefixes none of which is repeated: it keeps whether 67h and whether a forbidden byte
was among them (30 R111, R115). -/
theorem scanPrefixes_append (m : Mode) {p : Prefixes} {bad : Bool} {pre : List Byte}
    (hpre : ∀ b ∈ pre, isSegPrefix b = true ∨ b = 0x67#8 ∨ isForbidden b = true)
    (hseg : p.seg.isSome.toNat + pre.countP isSegPrefix ≤ 1) (haddr : p.addrSize.toNat + pre.count 0x67#8 ≤ 1) :
    ∃ q : Prefixes, q.addrSize = (p.addrSize || decide (0x67#8 ∈ pre)) ∧
      ∀ rest, scanPrefixes m p bad (pre ++ rest) = scanPrefixes m q (bad || pre.any isForbidden) rest := by
  induction pre generalizing p bad with
  | nil => exact ⟨p, by simp, by simp⟩
  | cons b pre ih =>
    obtain ⟨hb, htail⟩ := List.forall_mem_cons.1 hpre
    rcases hb with hb | rfl | hb
    case inl =>
      obtain ⟨h67, hforb⟩ := isSegPrefix_excludes hb
      rw [List.countP_cons_of_pos hb] at hseg
      have hp : p.seg = none := by
        by_contra h
        simp [Option.isSome_iff_ne_none.2 h] at hseg
      obtain ⟨sg, hsg⟩ := Option.isSome_iff_exists.1 (isSegPrefix_eq b ▸ hb)
      obtain ⟨q, hq, hrest⟩ := ih (p := { p with seg := some sg }) (bad := bad) htail
        (show 1 + pre.countP isSegPrefix ≤ 1 by omega) (by simpa [h67] using haddr)
      exact ⟨q, by simpa [h67.symm] using hq, fun rest => by simp [scanPrefixes_seg hsg hp, hrest, hforb]⟩
    case inr.inl =>
      rw [List.count_cons_self] at haddr
      have hp : p.addrSize = false := by
        by_contra h
        simp [Bool.not_eq_false _ ▸ h] at haddr
      obtain ⟨q, hq, hrest⟩ := ih (p := { p with addrSize := true }) (bad := bad) htail
        (by simpa [show isSegPrefix 0x67#8 = false from rfl] using hseg) (show 1 + pre.count 0x67#8 ≤ 1 by omega)
      exact ⟨q, by simpa using hq, fun rest => by
        simp [scanPrefixes_addrSize hp, hrest, show isForbidden 0x67#8 = false from rfl]⟩
    case inr.inr =>
      obtain ⟨hnseg, h67⟩ := isForbidden_excludes hb
      obtain ⟨q, hq, hrest⟩ := ih (p := p) (bad := true) htail (by simpa [hnseg] using hseg) (by simpa [h67] using haddr)
      exact ⟨q, by simpa [h67.symm] using hq, fun rest => by simp [scanPrefixes_forbidden hb, hrest, hb]⟩

/-! What follows the prefixes (30 R116). -/

theorem isVdbpsadbw_iff (p0 p1 op : Byte) : isVdbpsadbw p0 p1 op = true ↔ thisOpcode p0 p1 op := by
  have h0 : ∀ b : Byte, field b 0 2 = 3#2 ↔ b.getLsbD 0 = true ∧ b.getLsbD 1 = true := by decide
  have h1 : ∀ b : Byte, field b 0 2 = 1#2 ↔ b.getLsbD 0 = true ∧ b.getLsbD 1 = false := by decide
  simp only [isVdbpsadbw, thisOpcode, Bool.and_eq_true, beq_iff_eq, h0, h1, and_assoc]

theorem decodeBody_of_ne_evex (m : Mode) (csD : Bool) (p : Prefixes) (bad : Bool) {b : Byte} (h : b ≠ 0x62#8)
    (rest : List Byte) : decodeBody m csD p bad (b :: rest) = .refused .notThisInstruction := by
  simp [decodeBody, h]

theorem decodeBody_of_not_thisOpcode (m : Mode) (csD : Bool) (p : Prefixes) (bad : Bool) {p0 p1 op : Byte}
    (h : ¬ thisOpcode p0 p1 op) (p2 : Byte) (rest : List Byte) :
    decodeBody m csD p bad (evexBytes p0 p1 p2 op rest) = .refused .notThisInstruction := by
  rw [← isVdbpsadbw_iff, Bool.not_eq_true] at h
  simp [evexBytes, decodeBody_evex, decodeEvex, h]

/-- The decoder after legacy prefixes none of which is repeated: the body begins at the first other byte, or after a REX
byte, which makes it one of the #UD variants (30 R111, R115). -/
theorem decode_append (m : Mode) (csD : Bool) {pre : List Byte}
    (hpre : ∀ b ∈ pre, isSegPrefix b = true ∨ b = 0x67#8 ∨ isForbidden b = true) (honce : prefixesOnce pre) :
    ∃ q : Prefixes, q.addrSize = decide (0x67#8 ∈ pre) ∧
      (∀ b tail, isSegPrefix b = false → b ≠ 0x67#8 → isForbidden b = false → rexPrefix m b = false →
        decode m csD (pre ++ b :: tail) = decodeBody m csD q (pre.any isForbidden) (b :: tail)) ∧
      ∀ rex tail, rexPrefix m rex = true → decode m csD (pre ++ rex :: tail) = decodeBody m csD q true tail := by
  obtain ⟨hseg, haddr⟩ := honce
  obtain ⟨q, hq, hscan⟩ := scanPrefixes_append m (p := ⟨none, false⟩) (bad := false) hpre (by simpa using hseg)
    (by simpa using haddr)
  refine ⟨q, by simpa using hq, fun b tail h1 h2 h3 h4 => ?_, fun rex tail hrex => ?_⟩
  · rw [decode, hscan, scanPrefixes_of_not_prefix h1 h2 h3 h4, Parsed.bind_got, Bool.false_or]
  · rw [decode, hscan, scanPrefixes_rex hrex, Parsed.bind_got]

end Sys2Proof

namespace Sys2Proof.Machine

open Sys2Proof.Claims

/-! The gate and the faults that come after it (60 R172, R180). -/

theorem extractLsb'_eq_allOnes_iff {n : Nat} (x : BitVec n) (lo w : Nat) :
    x.extractLsb' lo w = BitVec.allOnes w ↔ ∀ i < w, x.getLsbD (lo + i) = true := by
  rw [BitVec.eq_of_getLsbD_eq_iff]
  refine forall_congr' fun i => imp_congr_right fun hi => ?_
  simp [hi]

/-- The five bits of xcr0 that 60 R172 asks for. -/
theorem xcr0Enabled_iff (s : State) : s.xcr0Enabled = true ↔ s.xcr0.getLsbD 1 = true ∧ s.xcr0.getLsbD 2 = true ∧
    s.xcr0.getLsbD 5 = true ∧ s.xcr0.getLsbD 6 = true ∧ s.xcr0.getLsbD 7 = true := by
  have h2 : s.xcr0.extractLsb' 1 2 = 3#2 ↔ _ := extractLsb'_eq_allOnes_iff s.xcr0 1 2
  have h3 : s.xcr0.extractLsb' 5 3 = 7#3 ↔ _ := extractLsb'_eq_allOnes_iff s.xcr0 5 3
  rw [State.xcr0Enabled, Bool.and_eq_true, beq_iff_eq, beq_iff_eq, h2, h3]
  constructor
  · exact fun ⟨ha, hb⟩ => ⟨ha 0 (by decide), ha 1 (by decide), hb 0 (by decide), hb 1 (by decide), hb 2 (by decide)⟩
  · rintro ⟨h1, h2, h5, h6, h7⟩
    constructor <;> intro i hi <;> interval_cases i <;> assumption

/-- The gate's test of #UD is the list of 60 R172. -/
theorem udState_iff (vl : VecLen) (s : State) : udState vl s = true ↔ udCondition vl s := by
  have hx : s.xcr0Enabled = false ↔ _ := Bool.not_eq_true _ ▸ not_congr (xcr0Enabled_iff s)
  simp only [udState, udCondition, cpuidOk, State.osxsave, Bool.or_eq_true, Bool.not_eq_true', beq_iff_eq, hx,
    Bool.and_eq_false_iff, Bool.or_eq_false_iff, beq_eq_false_iff_ne, not_and_or, Bool.not_eq_true, or_assoc,
    and_comm (a := vl ≠ .v512), ne_eq]

/-- MemRead raises neither exception of the gate. -/
theorem memRead_fault {s : State} {sg : Seg} {ea : BitVec 64} {n : Nat} {f : Fault}
    (h : memRead s sg ea n = .error (.fault f)) : f ≠ .ud ∧ f ≠ .nm := by
  rcases memRead_cases s sg ea n with
    ⟨-, e⟩ | ⟨-, -, e⟩ | ⟨-, -, _, _, -, e⟩ | ⟨-, -, -, -, e⟩ | ⟨-, -, -, -, -, e⟩ | ⟨-, -, -, -, -, e⟩ <;>
    rw [e] at h <;> cases h
  · cases sg <;> decide
  · simp
  · decide

theorem readSrc2_fault {vl : VecLen} {o : Operands} {s : State} {f : Fault} (h : readSrc2 vl o s = .error (.fault f)) :
    f ≠ .ud ∧ f ≠ .nm := by
  unfold readSrc2 at h
  split at h
  · cases h
  · exact memRead_fault h

/-- The faults of an instruction are the gate's, and past the gate those of reading its second source (60 R180). -/
theorem exec_eq_fault {i : Instr} {s : State} {f : Fault} : exec i s = .fault f ↔ gate i.vecLen s = some f ∨
    gate i.vecLen s = none ∧ readSrc2 i.vecLen i.operands s = .error (.fault f) := by
  rw [exec_eq_execForm, execForm]
  cases hg : gate i.vecLen s with
  | some g => simp [raise]
  | none =>
    cases hr : readSrc2 i.vecLen i.operands s with
    | ok src2 => simp
    | error e => cases e <;> simp [Stop.outcome, raise]

theorem gate_eq_ud {vl : VecLen} {s : State} : gate vl s = some .ud ↔ udState vl s = true := by
  cases h : udState vl s <;> cases h' : s.ts <;> simp [gate, h, h']

end Sys2Proof.Machine

/-! The statements of the family 00_scope. -/

namespace Sys2Proof.Proofs

open Sys2Proof.Machine Sys2Proof.Claims

/-- Settles O48: `step` is one match on what the decoder answers. -/
theorem stepRunsDecodedInstruction : Obligations.StepRunsDecodedInstruction :=
  fun _ _ _ h => step_of_got h

/-- Settles O47: bits 63:LAW-1 are the address shifted right by LAW-1, and 0 and -1 are the two such values whose bits
are all equal. -/
theorem canonicalAsSignedRange : Obligations.CanonicalAsSignedRange :=
  canonical_iff

/-- Settles O16: past the gate only the second source can fault, and never with #UD. -/
theorem udExactlyOnStateConditions : Obligations.UdExactlyOnStateConditions := by
  intro i s
  rw [exec_eq_fault, gate_eq_ud, udState_iff]
  exact or_iff_left fun ⟨_, hr⟩ => (readSrc2_fault hr).1 rfl

/-- Settles O14: the prefixes are scanned away, and what stands there is not 62h or not this opcode. -/
theorem otherBytesRefused : Obligations.OtherBytesRefused := by
  intro m csD pre hpre honce
  obtain ⟨q, -, hbody, hrex⟩ := decode_append m csD hpre honce
  refine ⟨fun b tail hseg h67 hforb h62 hnrex => ?_, fun p0 p1 p2 op tail hop => ?_, fun rex hm hlo hhi => ?_⟩
  · rw [← rexPrefix_iff, Bool.not_eq_true] at hnrex
    rw [hbody b tail hseg h67 hforb hnrex, decodeBody_of_ne_evex _ _ _ _ h62]
  · rw [evexBytes, hbody _ _ rfl (by decide) rfl (rexPrefix_evex m)]
    exact decodeBody_of_not_thisOpcode _ _ _ _ hop _ _
  · have hr : rexPrefix m rex = true := (rexPrefix_iff m rex).2 ⟨hm, hlo, hhi⟩
    refine ⟨fun b tail h62 => ?_, fun p0 p1 p2 op tail hop => ?_⟩
    · rw [hrex rex _ hr, decodeBody_of_ne_evex _ _ _ _ h62]
    · rw [hrex rex _ hr, decodeBody_of_not_thisOpcode _ _ _ _ hop]

/-- Settles O49: where the bytes run out, the reason is that of the first byte that cannot be fetched, which is what
`fetchStop` answers. -/
theorem stepRefusesUndecodedBytes : Obligations.StepRefusesUndecodedBytes := by
  refine fun s => ⟨step_of_refused, step_of_refused, step_of_refused, step_of_refused, step_of_refused, fun hmore => ?_⟩
  have hok {n : Nat} (h : ∀ j < n, ∃ b, instrByte s j b) : ∀ j < n, ∃ b, s.fetchByte j = .ok b :=
    fun j hj => (h j hj).imp fun _ => fetchByte_of_instrByte
  rw [step_of_more hmore]
  refine ⟨fun n hn h => ⟨fun hout => ?_, fun hfault => ?_⟩, fun h => ?_⟩
  · rw [fetchStop_of_error hn (hok h) (fetchByte_of_instrOutside hout)]
  · rw [fetchStop_of_error hn (hok h) (fetchByte_of_instrFaults hfault)]
  · rw [fetchStop_of_ok (hok h)]

/-- Settles O51: the bytes of the encoding, at most 14, come first among those fetched, and the decoder reads the
instruction back from them whatever follows. -/
theorem placedInstructionRuns : Obligations.PlacedInstructionRuns := by
  intro s i hwf hmode hplaced
  obtain ⟨hlen, -, hmax⟩ := Laws.EncodedLength.of_operands i
  have hfit : (encode i).length ≤ maxLength := by
    rw [hlen]
    exact hmax.trans (by decide)
  obtain ⟨rest, hfetched⟩ := fetchFrom_append hfit fun j b hj => (Nat.zero_add j).symm ▸ hplaced j b hj
  apply step_of_got
  rw [State.fetched, hfetched]
  exact decode_encode hwf hmode rest

end Sys2Proof.Proofs

/-! What a completed instruction leaves (40 R140): rip, the frame, and the value of DEST. -/

namespace Sys2Proof.Machine

open Sys2Proof.Claims

/-- What a next state of an instruction is: the completed one, for the second source it read. -/
theorem exec_next {i : Instr} {s t : State} (h : exec i s = .next t) :
    ∃ src2, readSrc2 i.vecLen i.operands s = .ok src2 ∧ t = completed i.vecLen i.operands s src2 :=
  (execForm_next (exec_eq_execForm i s ▸ h)).2

@[simp] theorem exec_formInstr (vl : VecLen) (o : Operands) (s : State) : exec (formInstr vl o) s = execForm vl o s := by
  cases vl <;> rfl

theorem gate_eq_none_of_ready {vl : VecLen} {s : State} (h : ready vl s) : gate vl s = none := by
  obtain ⟨hud, hts⟩ := h
  exact gate_eq_none.2 ⟨by rwa [← udState_iff, Bool.not_eq_true] at hud, hts⟩

theorem words_eq_resultWords (vl : VecLen) : vl.words = resultWords vl := by
  cases vl <;> rfl

theorem bits_eq_operandBytes (vl : VecLen) : vl.bits = 8 * operandBytes vl := by
  cases vl <;> rfl

/-! The program counter (10 R28, R29). -/

theorem toNat_low32 (v : BitVec 64) : (low32 v).toNat = v.toNat % 2 ^ 32 := by
  simp only [low32, BitVec.toNat_setWidth]
  omega

/-- `nextIp` is the sum of 10 R29 with the mode's wrap-around. -/
theorem State.nextIp_ipIs (s : State) (n : Nat) : ipIs s n (s.nextIp n) := by
  unfold ipIs State.nextIp
  split
  · simp
  · rw [toNat_low32, BitVec.toNat_add, BitVec.toNat_ofNat]
    omega

/-- Outside Mode64 the advanced program counter is an eip (10 R28). -/
theorem State.nextIp_lt (s : State) (n : Nat) (h : s.mode ≠ .mode64) : (s.nextIp n).toNat < 2 ^ 32 := by
  have hip := s.nextIp_ipIs n
  rw [ipIs, if_neg h] at hip
  rw [hip]
  exact Nat.mod_lt _ (by decide)

/-! The completed state, read field by field. -/

section
variable (vl : VecLen) (o : Operands) (s : State) (src2 : VecVal)

@[simp] theorem completed_rip : (completed vl o s src2).rip = s.nextIp o.ilen := rfl

@[simp] theorem completed_mode : (completed vl o s src2).mode = s.mode := rfl

@[simp] theorem completed_mem : (completed vl o s src2).mem = s.mem := rfl

@[simp] theorem completed_k : (completed vl o s src2).k = s.k := rfl

@[simp] theorem completed_readZmm_dest : (completed vl o s src2).readZmm o.dest = resultValue vl o s src2 := by
  simp [completed]

/-- The frame of every completed instruction (10 R44). -/
theorem completed_onlyDestAndIp : onlyDestAndIp o.dest s (completed vl o s src2) :=
  ⟨fun _ hr => State.readZmm_writeZmm_other s o.dest _ hr, fun _ => rfl, fun _ => rfl, rfl, rfl, rfl, rfl, rfl, rfl, rfl,
    rfl, rfl, rfl, rfl, fun _ => rfl, rfl⟩

theorem completed_ipIs : ipIs s o.ilen (completed vl o s src2).rip :=
  s.nextIp_ipIs o.ilen

end

/-! The result words, byte by byte (40 R131, R133). -/

/-- The shuffle stays inside its lane, and so inside the operand (40 R131). -/
theorem shuffledByte_lt {vl : VecLen} (imm8 : BitVec 8) {b : Nat} (h : b < operandBytes vl) :
    shuffledByte imm8 b < operandBytes vl := by
  unfold shuffledByte
  cases vl <;> simp only [operandBytes] at h ⊢ <;> omega

/-- A byte of TMP1 is the byte of the second source that the shuffle selects (40 R131). -/
theorem byteAt_tmp1 {vl : VecLen} (src2 : VecVal) (imm8 : BitVec 8) {b : Nat} (h : b < operandBytes vl) :
    byteAt (tmp1 vl src2 imm8) b = byteAt src2 (shuffledByte imm8 b) := by
  have hd : b / 4 < vl.bits / 32 := by
    cases vl <;> simp only [operandBytes, VecLen.bits] at h ⊢ <;> omega
  have hn : b / 4 / 4 = b / 16 := by omega
  have hsel : b / 4 % 4 = b % 16 / 4 := by omega
  rw [byteAt_dwordAt, dwordAt_tmp1 _ _ _ _ hd, hn, hsel]
  unfold byteAt dwordAt shuffledByte
  rw [elem_elem 8 4 _ _ _ (by omega)]
  congr 1
  ring

/-- A byte of the stationary dword of result word `4q + r` (40 R133). -/
theorem byteAt_stationary (v : VecVal) (q : Nat) {r k : Nat} (hr : r < 4) (hk : k < 4) :
    byteAt (dwordAt (qwordAt v q) (r / 2)) k = byteAt v (8 * q + 4 * (r / 2) + k) := by
  unfold byteAt dwordAt qwordAt
  rw [elem_elem 8 4 _ _ _ (by omega), elem_elem 8 8 _ _ _ (by omega), Nat.add_assoc]

/-- A byte of the sliding dword of result word `4q + r` (40 R133). -/
theorem byteAt_sliding_qword (v : VecVal) (q : Nat) {r k : Nat} (hr : r < 4) (hk : k < 4) :
    byteAt ((qwordAt v q).extractLsb' (8 * r) 32) k = byteAt v (8 * q + r + k) := by
  rw [byteAt_sliding _ _ _ hk]
  unfold byteAt qwordAt
  rw [elem_elem 8 8 _ _ _ (by omega), Nat.add_assoc]

theorem natCast_absDiff (x y : VecVal) (i j : Nat) :
    (absDiff (byteAt x i) (byteAt y j) : Int) = byteDiff x i y j :=
  Int.natCast_natAbs _

/-- A result word before masking is the integer of 40 R133, for any second source with the bytes read. -/
theorem toNat_wordAt_tmpDest {vl : VecLen} (src1 : VecVal) {v src2 : VecVal} (imm8 : BitVec 8) {j : Nat}
    (hj : j < resultWords vl) (hsrc : ∀ b < operandBytes vl, byteAt v b = byteAt src2 b) :
    ((wordAt (tmpDest vl (low vl src1) (tmp1 vl v imm8)) j).toNat : Int) = sadOf src1 src2 imm8 j := by
  have hw := words_eq_resultWords vl
  have hbits := bits_eq_operandBytes vl
  have hfit : 8 * (j / 4) + 8 ≤ operandBytes vl := by
    cases vl <;> simp only [operandBytes, resultWords] at hj ⊢ <;> omega
  have hr : j % 4 < 4 := by omega
  have hlow {i : Nat} (hi : i < operandBytes vl) : byteAt (low vl src1) i = byteAt src1 i :=
    elem_low vl src1 8 i (by omega)
  have hshuf {b : Nat} (hb : b < operandBytes vl) : byteAt (tmp1 vl v imm8) b = byteAt src2 (shuffledByte imm8 b) := by
    rw [byteAt_tmp1 v imm8 hb, hsrc _ (shuffledByte_lt imm8 hb)]
  have hterm {k : Nat} (hk : k < 4) :
      (absDiff (byteAt (dwordAt (qwordAt (low vl src1) (j / 4)) (j % 4 / 2)) k)
        (byteAt ((qwordAt (tmp1 vl v imm8) (j / 4)).extractLsb' (8 * (j % 4)) 32) k) : Int) =
      byteDiff src1 (8 * (j / 4) + 4 * (j % 4 / 2) + k) src2 (shuffledByte imm8 (8 * (j / 4) + j % 4 + k)) := by
    rw [byteAt_stationary _ _ hr hk, byteAt_sliding_qword _ _ hr hk, hlow (by omega), hshuf (by omega), natCast_absDiff]
  have hhalf : (if j % 4 < 2 then 0 else 4) = 4 * (j % 4 / 2) := by
    split <;> omega
  rw [wordAt_tmpDest _ _ _ _ (by omega), toNat_sadWord, sad4]
  push_cast
  rw [hterm (by decide), hterm (by decide), hterm (by decide), hterm (by decide)]
  simp only [sadOf, hhalf, Nat.add_zero]

/-- The value written to DEST follows 40 R133, R134 and R136, for any second source with the bytes read. -/
theorem resultValue_destIs {vl : VecLen} (o : Operands) (s : State) {v src2 : VecVal}
    (hsrc : ∀ b < operandBytes vl, byteAt v b = byteAt src2 b) : destIs vl o s src2 (resultValue vl o s v) := by
  have hw := words_eq_resultWords vl
  refine ⟨fun j hj => ⟨fun hwrite => ?_, fun hmask hbit => ?_⟩, fun b hb => ?_⟩
  · have hm : maskBit o s j = true := by simpa [maskBit] using hwrite
    rw [resultValue, wordAt_newDest _ _ _ _ _ _ (by omega), if_pos hm]
    exact toNat_wordAt_tmpDest _ _ hj hsrc
  · have hm : maskBit o s j = false := by simpa [maskBit, hbit] using hmask
    rw [resultValue, wordAt_newDest _ _ _ _ _ _ (by omega), hm]
    rfl
  · exact getLsbD_newDest_above _ _ _ _ _ _ (by omega)

/-- The register form completes wherever the gate lets it through. -/
theorem execForm_reg_leaves {vl : VecLen} {o : Operands} {r : BitVec 5} {s : State} (hsrc2 : o.src2 = .reg r)
    (hready : ready vl s) : ∃ t, execForm vl o s = .next t ∧ leaves vl o s (s.readZmm r) t := by
  have hread : readSrc2 vl o s = .ok (low vl (s.readZmm r)) := by simp [readSrc2, hsrc2]
  have hbits := bits_eq_operandBytes vl
  refine ⟨_, execForm_of_ok (gate_eq_none_of_ready hready) hread, ?_, completed_ipIs _ _ _ _,
    completed_onlyDestAndIp _ _ _ _⟩
  rw [completed_readZmm_dest]
  exact resultValue_destIs o s fun b hb => elem_low _ _ _ _ (by omega)

end Sys2Proof.Machine

/-! What an instruction does not read: two executions whose gate and second source agree have the same outcome. -/

namespace Sys2Proof.Machine

open Sys2Proof.Claims

/-- Where two instructions pass the same gate and read the same second source, the outcomes differ as their completed
states do. -/
theorem execForm_eq_mapNext {vl : VecLen} {o o' : Operands} {s s' : State} {f : State → State}
    (hgate : gate vl s' = gate vl s) (hread : readSrc2 vl o' s' = readSrc2 vl o s)
    (hcompleted : ∀ src2, completed vl o' s' src2 = f (completed vl o s src2)) :
    execForm vl o' s' = mapNext f (execForm vl o s) := by
  cases hg : gate vl s with
  | some e => rw [execForm_of_gate hg, execForm_of_gate (hgate.trans hg), mapNext]
  | none =>
    cases hr : readSrc2 vl o s with
    | ok src2 => rw [execForm_of_ok hg hr, execForm_of_ok (hgate.trans hg) (hread.trans hr), hcompleted, mapNext]
    | error e =>
      rw [execForm_of_error hg hr, execForm_of_error (hgate.trans hg) (hread.trans hr)]
      cases e <;> rfl

/-! Opmask bits (10 R25). -/

theorem pack_congr {w : Nat} {f g : Nat → BitVec w} {n : Nat} (h : ∀ i < n, f i = g i) : pack w f n = pack w g n := by
  induction n with
  | zero => rfl
  | succ n ih => rw [pack, pack, ih fun i hi => h i (by omega), h n (by omega)]

/-- The masked write asks only the mask bits of its KL words (40 R134). -/
theorem newDest_congr {vl : VecLen} {write write' : Nat → Bool} (zeroing : Bool) (result old : VecVal)
    (h : ∀ j < resultWords vl, write j = write' j) :
    newDest vl write zeroing result old = newDest vl write' zeroing result old := by
  refine pack_congr fun j hj => ?_
  rw [h j (words_eq_resultWords vl ▸ hj)]

/-! Control bits (10 R40). -/

section
variable {s u : State}

theorem mode_withControls (h : sameControls s u) : (withControls u s).mode = s.mode := by
  obtain ⟨hcr0, -, -, hefer, hrflags⟩ := h
  have hpe : (withControls u s).pe = s.pe := hcr0 0 (by decide)
  have hlma : (withControls u s).lma = s.lma := hefer
  have hvm : (withControls u s).vm = s.vm := hrflags 17 (by decide)
  simp only [State.mode, hpe, hlma, hvm]
  rfl

theorem gate_withControls (vl : VecLen) (h : sameControls s u) : gate vl (withControls u s) = gate vl s := by
  have hmode := mode_withControls h
  obtain ⟨hcr0, hcr4, hxcr0, -, -⟩ := h
  have hts : (withControls u s).ts = s.ts := hcr0 3 (by decide)
  have hosxsave : (withControls u s).osxsave = s.osxsave := hcr4
  have hx : (withControls u s).xcr0Enabled = s.xcr0Enabled := by
    rw [Bool.eq_iff_iff, xcr0Enabled_iff, xcr0Enabled_iff]
    have hbit {b : Nat} (hb : b ∈ [1, 2, 5, 6, 7]) : (withControls u s).xcr0.getLsbD b = s.xcr0.getLsbD b := hxcr0 b hb
    rw [hbit (b := 1) (by decide), hbit (b := 2) (by decide), hbit (b := 5) (by decide), hbit (b := 6) (by decide),
      hbit (b := 7) (by decide)]
  simp only [gate, udState, hmode, hts, hosxsave, hx]
  rfl

/-- Of the controls MemRead reads the mode and the alignment bits AM and AC only (20 R55, R61). -/
theorem memRead_withControls (h : sameControls s u) (sg : Seg) (ea : BitVec 64) (n : Nat) :
    memRead (withControls u s) sg ea n = memRead s sg ea n := by
  have hmode := mode_withControls h
  obtain ⟨hcr0, -, -, -, hrflags⟩ := h
  have hla : linearAddr (withControls u s) sg ea = linearAddr s sg ea := by
    simp only [linearAddr, hmode]
    rfl
  have hseg : segmentFaults (withControls u s) sg ea n = segmentFaults s sg ea n := by
    simp only [segmentFaults, hmode, hla]
    rfl
  have htop : (withControls u s).top = s.top := by simp only [State.top, hmode]
  have halign (la : Nat) : alignFaults (withControls u s) la n = alignFaults s la n := by
    have ham : (withControls u s).am = s.am := hcr0 18 (by decide)
    have hac : (withControls u s).acFlag = s.acFlag := hrflags 18 (by decide)
    simp only [alignFaults, ham, hac]
    rfl
  simp only [memRead, hla, hseg, htop, halign]
  rfl

theorem operandSeg_withControls (h : sameControls s u) (p : Prefixes) (m : MemOperand) :
    operandSeg (withControls u s) p m = operandSeg s p m := by
  simp only [operandSeg, mode_withControls h]

theorem operandAddr_withControls (h : sameControls s u) (vl : VecLen) (o : Operands) (m : MemOperand) :
    operandAddr vl o (withControls u s) m = operandAddr vl o s m := by
  cases m <;> simp only [operandAddr, effAddr, addr32, mode_withControls h] <;> rfl

theorem readSrc2_withControls (h : sameControls s u) (vl : VecLen) (o : Operands) :
    readSrc2 vl o (withControls u s) = readSrc2 vl o s := by
  unfold readSrc2
  cases o.src2 with
  | reg r => rfl
  | mem m => simp only [operandSeg_withControls h, operandAddr_withControls h, memRead_withControls h]

theorem completed_withControls (h : sameControls s u) (vl : VecLen) (o : Operands) (src2 : VecVal) :
    completed vl o (withControls u s) src2 = withControls u (completed vl o s src2) := by
  have hip : (withControls u s).nextIp o.ilen = s.nextIp o.ilen := by
    simp only [State.nextIp, mode_withControls h]
    rfl
  simp only [completed, State.advance, State.writeZmm_nextIp, hip]
  rfl

end

/-! A segment override on a register form (30 R111, R112). -/

/-- One byte further is what the advance by one more byte is, with either wrap-around. -/
theorem oneByteFurther_advance (s : State) (n : Nat) : oneByteFurther (s.advance n) = s.advance (n + 1) := by
  have hrip : BitVec.ofNat 64 (((s.nextIp n).toNat + 1) % s.top) = s.nextIp (n + 1) := by
    have hn := s.nextIp_ipIs n
    have hn1 := s.nextIp_ipIs (n + 1)
    apply BitVec.eq_of_toNat_eq
    unfold ipIs at hn hn1
    unfold State.top
    rw [BitVec.toNat_ofNat, hn, hn1]
    split <;> omega
  simp only [oneByteFurther, State.advance_mode, State.advance_rip]
  exact congrArg (fun x => { s with rip := x }) hrip

theorem ilen_withSeg_some (sg : Seg) (o : Operands) : (withSeg (some sg) o).ilen = (withSeg none o).ilen + 1 := by
  have hcount :
      Prefixes.count { o.prefixes with seg := some sg } = Prefixes.count { o.prefixes with seg := none } + 1 := by
    simp [Prefixes.count, Nat.add_comm]
  simp only [Operands.ilen, withSeg, hcount]
  omega

/-- A register form reads the same second source whatever its prefixes. -/
theorem readSrc2_withSeg {o : Operands} {r : BitVec 5} (h : o.src2 = .reg r) (vl : VecLen) (sg sg' : Option Seg)
    (s : State) : readSrc2 vl (withSeg sg o) s = readSrc2 vl (withSeg sg' o) s := by
  simp only [readSrc2, withSeg, h]

/-! The mode and the linear address (60 R176, 20 R62), and fetching past `Translate`'s table (20 R63). -/

/-- The rows of 60 R176, with VM deciding before LMA (log 1): each branch of `State.mode` against every row. -/
theorem State.mode_rows (s : State) :
    (s.mode = .real ↔ s.pe = false) ∧ (s.mode = .v86 ↔ s.pe = true ∧ s.vm = true) ∧
    (s.mode = .prot32 ↔ s.pe = true ∧ s.lma = false ∧ s.vm = false) ∧
    (s.mode = .mode64 ↔ s.vm = false ∧ s.pe = true ∧ s.lma = true ∧ s.csL = true) ∧
    (s.mode = .compat32 ↔ s.vm = false ∧ s.pe = true ∧ s.lma = true ∧ s.csL = false) := by
  cases hpe : s.pe with
  | false => simp [State.mode, hpe]
  | true =>
    cases hvm : s.vm with
    | true => simp [State.mode, hpe, hvm]
    | false =>
      cases hlma : s.lma with
      | false => simp [State.mode, hpe, hvm, hlma]
      | true => cases hl : s.csL <;> simp [State.mode, hpe, hvm, hlma, hl]

/-- Where no row of the table covers the address, `Translate` is the identity (log 5). -/
theorem translate_of_not_covered {es : List XlatEntry} {la : Nat} (h : ∀ e ∈ es, ¬ (e.first ≤ la ∧ la ≤ e.last))
    (a : Access) (cpl : BitVec 2) : translate es la a cpl = .ok la := by
  induction es with
  | nil => rfl
  | cons e es ih =>
    obtain ⟨he, hes⟩ := List.forall_mem_cons.1 h
    have hcov : e.covers la a cpl = false := by
      rw [XlatEntry.covers, ← Bool.decide_and, decide_eq_false he, Bool.false_and, Bool.false_and]
    simp only [translate, hcov, Bool.false_eq_true, if_false, ih hes]

end Sys2Proof.Machine

/-! The statements of the family 10_state. -/

namespace Sys2Proof.Proofs

open Sys2Proof.Machine Sys2Proof.Claims

/-- Settles O52: a next state is a completed one, which has the same memory and mode and a reduced rip. -/
theorem stepKeepsInvariant : Obligations.StepKeepsInvariant := by
  intro s t ⟨hmem, _⟩ hstep
  obtain ⟨i, rest, -, hexec⟩ := step_next hstep
  obtain ⟨src2, -, rfl⟩ := exec_next hexec
  exact ⟨hmem, s.nextIp_lt i.operands.ilen⟩

/-- Settles O54: a step executes one decoded instruction, whose length is between 7 and 14 (30 R112). -/
theorem stepChangesOneVectorRegister : Obligations.StepChangesOneVectorRegister := by
  intro s t hstep
  obtain ⟨i, rest, -, hexec⟩ := step_next hstep
  obtain ⟨src2, -, rfl⟩ := exec_next hexec
  obtain ⟨-, hmin, hmax⟩ := Laws.EncodedLength.of_operands i
  exact ⟨i.operands.dest, i.operands.ilen, completed_onlyDestAndIp _ _ _ _, hmin, hmax, completed_ipIs _ _ _ _,
    completed_mode _ _ _ _⟩

/-- Settles O25: the register read never stops, so the form completes once the gate lets it through. -/
theorem registerFormsComplete : Obligations.RegisterFormsComplete :=
  fun _ _ _ hsrc2 => ⟨execForm_reg_leaves hsrc2, execForm_reg_leaves hsrc2, execForm_reg_leaves hsrc2⟩

/-- Settles O28: the frame of the completed state. -/
theorem onlyDestinationAndIpChange : Obligations.OnlyDestinationAndIpChange := by
  intro i s t hexec
  obtain ⟨src2, -, rfl⟩ := exec_next hexec
  exact completed_onlyDestAndIp _ _ _ _

/-- Settles O29: the completed state's rip is `nextIp` of the length. -/
theorem ipAdvancesByLength : Obligations.IpAdvancesByLength := by
  intro i s t hexec
  obtain ⟨src2, -, rfl⟩ := exec_next hexec
  exact completed_ipIs _ _ _ _

/-- Settles O32: opmask registers enter the masked write only, at the words below KL. -/
theorem opmaskBitsAboveKlUnread : Obligations.OpmaskBitsAboveKlUnread := by
  intro i s k hk
  refine ⟨?_, fun t hexec => ?_⟩
  · have hmask : ∀ j < resultWords i.vecLen, maskBit i.operands { s with k := k } j = maskBit i.operands s j := by
      intro j hj
      unfold maskBit
      cases hm : i.operands.mask == 0#3
      · rw [hk (by simpa using hm) j hj]
      · rfl
    rw [exec_eq_execForm, exec_eq_execForm]
    refine execForm_eq_mapNext rfl rfl fun src2 => ?_
    have hresult : resultValue i.vecLen i.operands { s with k := k } src2 = resultValue i.vecLen i.operands s src2 :=
      newDest_congr _ _ _ hmask
    rw [completed, hresult]
    rfl
  · obtain ⟨src2, -, rfl⟩ := exec_next hexec
    exact completed_k _ _ _ _

/-- Settles O33: gate, second source and completed state do not name mxcsr. -/
theorem mxcsrNeitherReadNorWritten : Obligations.MxcsrNeitherReadNorWritten := by
  intro i s v
  rw [exec_eq_execForm, exec_eq_execForm]
  exact execForm_eq_mapNext rfl rfl fun _ => rfl

/-- Settles O34: the gate, the mode and the alignment check read only bits that 10 R40 gives a role. -/
theorem controlsOnlyGate : Obligations.ControlsOnlyGate := by
  intro i s u h
  rw [exec_eq_execForm, exec_eq_execForm]
  exact execForm_eq_mapNext (gate_withControls _ h) (readSrc2_withControls h _ _) (completed_withControls h _ _)

/-- Settles O36: a register form meets the override in its length only. -/
theorem segmentOverrideIdleOnRegisters : Obligations.SegmentOverrideIdleOnRegisters := by
  intro vl o r s sg sg' hsrc2
  have hfurther (sg : Seg) : execForm vl (withSeg (some sg) o) s =
      mapNext oneByteFurther (execForm vl (withSeg none o) s) := by
    refine execForm_eq_mapNext rfl (readSrc2_withSeg hsrc2 _ _ _ _) fun src2 => ?_
    rw [completed, completed, oneByteFurther_advance, ilen_withSeg_some]
    rfl
  simp only [exec_formInstr]
  exact ⟨(hfurther sg).trans (hfurther sg').symm, hfurther sg⟩

/-- Settles O50: an address no row covers is its own translation, and then the byte is one of the three kinds. -/
theorem fetchReadsMemoryAtIp : Obligations.FetchReadsMemoryAtIp := by
  intro s n
  refine ⟨fun hreach hplain => ?_, fun _ => fetchByte_of_instrByte, fetchByte_of_instrOutside, fetchByte_of_instrFaults⟩
  have hla := translate_of_not_covered hplain .fetch s.cpl
  exact ⟨fun b hmem => fetchByte_of_instrByte ⟨hreach, _, hla, hmem⟩,
    fun hmem => fetchByte_of_instrOutside (.inr ⟨hreach, _, hla, hmem⟩)⟩

/-- Settles O15: the table of 60 R176 row by row, over the four bits that decide. -/
theorem modeFollowsControls : Obligations.ModeFollowsControls := by
  intro s
  obtain ⟨hreal, hv86, hprot32, hmode64, hcompat32⟩ := s.mode_rows
  exact ⟨hreal, hv86, hprot32, fun hvm => hmode64.trans (and_iff_right hvm),
    fun hvm => hcompat32.trans (and_iff_right hvm)⟩

/-- Settles O46: base and effective address are added in 64 bits, and outside Mode64 the sum is cut to 32. -/
theorem linearAddressFormed : Obligations.LinearAddressFormed := by
  intro s sg ea
  unfold linearAddr
  split
  · have hbase : (segBase64 s.seg sg).toNat = if sg = .fs ∨ sg = .gs then (s.seg.get sg).base.toNat else 0 := by
      cases sg <;> rfl
    rw [BitVec.toNat_add, hbase]
  · rw [toNat_low32, BitVec.toNat_add]
    omega

/-- Settles O53: the start state lists no memory and is in Mode64. -/
theorem resetMeetsInvariant : Obligations.ResetMeetsInvariant :=
  ⟨State.reset_mem_wf, fun h => absurd rfl h⟩

/-- Settles O57: the hard reset is in real-address mode, one of the conditions of 60 R172. -/
theorem resetIsEnabledLaunchState : Obligations.ResetIsEnabledLaunchState := by
  refine ⟨by decide, fun vl => ?_, by decide, fun i => (udExactlyOnStateConditions i _).2 (.inl (by decide))⟩
  cases vl <;> decide

end Sys2Proof.Proofs

/-! What reading a memory operand does, in the words of the statements (20 R61, R65; 60 R180). -/

namespace Sys2Proof.Machine

open Sys2Proof.Claims

theorem bytes_eq_operandBytes (vl : VecLen) : vl.bytes = operandBytes vl := by
  cases vl <;> rfl

/-- An instruction gets to its operands exactly when it is ready. -/
theorem gate_eq_none_iff_ready {vl : VecLen} {s : State} : gate vl s = none ↔ ready vl s := by
  rw [gate_eq_none, ready, ← udState_iff, Bool.not_eq_true]
  rfl

/-- The gate raises #UD and #NM only. -/
theorem gate_fault {vl : VecLen} {s : State} {f : Fault} (h : gate vl s = some f) : f = .ud ∨ f = .nm := by
  unfold gate at h
  split at h
  · exact .inl (Option.some.inj h).symm
  · split at h
    · exact .inr (Option.some.inj h).symm
    · cases h

/-! The checks of MemRead on the whole operand. -/

section
variable {vl : VecLen} {o : Operands} {s : State} {m : MemOperand}

theorem segmentFaults_iff_segmentBad :
    segmentFaults s (operandSeg s o.prefixes m) (operandAddr vl o s m) vl.bytes = true ↔ segmentBad vl o s m := by
  rw [bytes_eq_operandBytes, segmentFaults, segmentBad]
  split
  · have hbyte (i : Nat) : linearAddr s (operandSeg s o.prefixes m) (operandAddr vl o s m) + BitVec.ofNat 64 i =
        BitVec.ofNat 64 (operandLinear vl o s m + i) := by
      rw [BitVec.ofNat_add, operandLinear, BitVec.ofNat_toNat, BitVec.setWidth_eq]
    simp [hbyte, canonical_eq_false_iff]
  · simp [segDenies, checkDenies, SegDeny.covers, and_assoc]

theorem top_lt_iff_operandWraps : s.top < operandLinear vl o s m + vl.bytes ↔ operandWraps vl o s m := by
  rw [bytes_eq_operandBytes]
  rfl

theorem State.top_le (s : State) : s.top ≤ 2 ^ 64 := by
  unfold State.top
  split <;> decide

theorem pageFaults_eq_nil_iff : pageFaults s (operandLinear vl o s m) vl.bytes = [] ↔
    ∀ n < operandBytes vl, ∀ code, ¬ byteFaults vl o s m n code := by
  simp only [List.eq_nil_iff_forall_not_mem, Prod.forall, mem_pageFaults, bytes_eq_operandBytes, byteFaults]
  constructor
  · exact fun h n hn code hf => h code _ ⟨n, hn, hf, rfl⟩
  · rintro h code _ ⟨n, hn, hf, -⟩
    exact h n hn code hf

theorem alignFaults_iff_alignmentBad :
    alignFaults s (operandLinear vl o s m) vl.bytes = true ↔ alignmentBad vl o s m := by
  have hcpl : s.cpl = 3#2 ↔ s.cpl.toNat = 3 := BitVec.toNat_inj.symm
  simp [alignFaults, alignmentBad, State.am, State.acFlag, bytes_eq_operandBytes, hcpl, and_assoc]

/-- A byte that translates reads as what memory holds there. -/
theorem dataByte_of_byteMapsTo {n pa : Nat} (h : byteMapsTo vl o s m n pa) :
    s.dataByte (operandLinear vl o s m + n) = s.mem.read pa := by
  unfold byteMapsTo at h
  simp [State.dataByte, h]

end

/-- What reading a memory operand can answer, each with the checks that have let it come to that (60 R180). -/
inductive OperandRead (vl : VecLen) (o : Operands) (s : State) (m : MemOperand) : Except Stop VecVal → Prop where
  | stackFault (hbad : segmentBad vl o s m) (hseg : operandSeg s o.prefixes m = .ss) :
    OperandRead vl o s m (.error (.fault .ss))
  | generalFault (hbad : segmentBad vl o s m) (hseg : operandSeg s o.prefixes m ≠ .ss) :
    OperandRead vl o s m (.error (.fault .gp))
  | wrap (hseg : ¬ segmentBad vl o s m) (hwrap : operandWraps vl o s m) :
    OperandRead vl o s m (.error (.refused .addressWrap))
  | pageFault {n : Nat} {code : BitVec 32} {addr : BitVec 64} (hseg : ¬ segmentBad vl o s m)
    (hfit : ¬ operandWraps vl o s m) (hn : n < operandBytes vl) (hfault : byteFaults vl o s m n code)
    (haddr : addr.toNat = operandLinear vl o s m + n) : OperandRead vl o s m (.error (.fault (.pf code addr)))
  | misaligned (hseg : ¬ segmentBad vl o s m) (hfit : ¬ operandWraps vl o s m)
    (htrans : ∀ n < operandBytes vl, ∀ code, ¬ byteFaults vl o s m n code) (halign : alignmentBad vl o s m) :
    OperandRead vl o s m (.error (.fault .ac))
  | notPlain {n : Nat} (hseg : ¬ segmentBad vl o s m) (hfit : ¬ operandWraps vl o s m)
    (htrans : ∀ n < operandBytes vl, ∀ code, ¬ byteFaults vl o s m n code) (halign : ¬ alignmentBad vl o s m)
    (hn : n < operandBytes vl) (hnone : s.dataByte (operandLinear vl o s m + n) = none) :
    OperandRead vl o s m (.error (.refused .notPlainMemory))
  | plain {v : VecVal} (hseg : ¬ segmentBad vl o s m) (hfit : ¬ operandWraps vl o s m)
    (halign : ¬ alignmentBad vl o s m)
    (hbytes : ∀ n < operandBytes vl, s.dataByte (operandLinear vl o s m + n) = some (byteAt v n)) :
    OperandRead vl o s m (.ok v)

/-- `memRead_cases` for the operand of an instruction. -/
theorem readSrc2_operandRead {vl : VecLen} {o : Operands} {m : MemOperand} (s : State) (hsrc2 : o.src2 = .mem m) :
    OperandRead vl o s m (readSrc2 vl o s) := by
  have hread : readSrc2 vl o s = memRead s (operandSeg s o.prefixes m) (operandAddr vl o s m) vl.bytes := by
    simp [readSrc2, hsrc2]
  have hcases := memRead_cases s (operandSeg s o.prefixes m) (operandAddr vl o s m) vl.bytes
  rw [← hread, ← operandLinear, ← Bool.not_eq_true, ← Bool.not_eq_true, ← Nat.not_lt, segmentFaults_iff_segmentBad,
    top_lt_iff_operandWraps, pageFaults_eq_nil_iff, alignFaults_iff_alignmentBad] at hcases
  rcases hcases with ⟨hbad, e⟩ | ⟨hseg, hwrap, e⟩ | ⟨hseg, hfit, f, fs, hfs, e⟩ | ⟨hseg, hfit, htrans, halign, e⟩ |
    ⟨hseg, hfit, htrans, halign, ⟨n, hn, hnone⟩, e⟩ | ⟨hseg, hfit, -, halign, hsome, e⟩ <;> rw [e]
  · by_cases hss : operandSeg s o.prefixes m = .ss
    · rw [segFault, if_pos hss]
      exact .stackFault hbad hss
    · rw [segFault, if_neg hss]
      exact .generalFault hbad hss
  · exact .wrap hseg hwrap
  · have hpick : ((pickPageFault f fs).1, (pickPageFault f fs).2) ∈ _ := hfs ▸ pickPageFault_mem f fs
    obtain ⟨n, hn, hfault, haddr⟩ := mem_pageFaults.1 hpick
    have hbelow : operandLinear vl o s m + vl.bytes ≤ s.top := Nat.not_lt.1 (top_lt_iff_operandWraps.not.2 hfit)
    have htop := s.top_le
    refine .pageFault hseg hfit (bytes_eq_operandBytes vl ▸ hn) hfault ?_
    rw [haddr, BitVec.toNat_ofNat, Nat.mod_eq_of_lt (by omega)]
  · exact .misaligned hseg hfit htrans halign
  · exact .notPlain hseg hfit htrans halign (bytes_eq_operandBytes vl ▸ hn) hnone
  · refine .plain hseg hfit halign fun n hn => ?_
    rw [← bytes_eq_operandBytes] at hn
    obtain ⟨b, hb⟩ := Option.isSome_iff_exists.1 (hsome n hn)
    rw [byteAt, elem_pack _ _ _ (by cases vl <;> decide) _ hn, hb]
    rfl

/-! The outcome of an instruction with a memory operand. -/

/-- Any fault but the gate's comes from a memory operand of a ready instruction. -/
theorem exec_eq_operand_fault {i : Instr} {s : State} {f : Fault} (hud : f ≠ .ud) (hnm : f ≠ .nm) :
    exec i s = .fault f ↔ ready i.vecLen s ∧ ∃ m, i.operands.src2 = .mem m ∧
      readSrc2 i.vecLen i.operands s = .error (.fault f) := by
  rw [exec_eq_fault, or_iff_right fun hg => (gate_fault hg).elim hud hnm, gate_eq_none_iff_ready]
  refine and_congr_right fun _ => ?_
  cases hsrc2 : i.operands.src2 with
  | reg r => simp [readSrc2, hsrc2]
  | mem m => simp

section
variable {vl : VecLen} {o : Operands} {m : MemOperand} {s : State} (hsrc2 : o.src2 = .mem m)
include hsrc2

theorem readSrc2_eq_ss_iff : readSrc2 vl o s = .error (.fault .ss) ↔
    segmentBad vl o s m ∧ operandSeg s o.prefixes m = .ss := by
  have hread := readSrc2_operandRead (vl := vl) s hsrc2
  generalize readSrc2 vl o s = answer at hread ⊢
  cases hread <;> simp [*]

theorem readSrc2_eq_gp_iff : readSrc2 vl o s = .error (.fault .gp) ↔
    segmentBad vl o s m ∧ operandSeg s o.prefixes m ≠ .ss := by
  have hread := readSrc2_operandRead (vl := vl) s hsrc2
  generalize readSrc2 vl o s = answer at hread ⊢
  cases hread <;> simp [*]

theorem readSrc2_eq_ac_iff : readSrc2 vl o s = .error (.fault .ac) ↔ ¬ segmentBad vl o s m ∧ ¬ operandWraps vl o s m ∧
    (∀ n < operandBytes vl, ∀ code, ¬ byteFaults vl o s m n code) ∧ alignmentBad vl o s m := by
  have hread := readSrc2_operandRead (vl := vl) s hsrc2
  generalize readSrc2 vl o s = answer at hread ⊢
  cases hread with
  | pageFault hseg hfit hn hfault haddr => simpa using fun _ _ htrans => (htrans _ hn _ hfault).elim
  | misaligned hseg hfit htrans halign => exact iff_of_true rfl ⟨hseg, hfit, htrans, halign⟩
  | _ => simp [*]

/-- The checks before translation leave a faulting byte to #PF (20 R61). -/
theorem readSrc2_of_byteFaults {n : Nat} {code : BitVec 32} (hseg : ¬ segmentBad vl o s m)
    (hfit : ¬ operandWraps vl o s m) (hn : n < operandBytes vl) (hfault : byteFaults vl o s m n code) :
    ∃ c a, readSrc2 vl o s = .error (.fault (.pf c a)) := by
  have hread := readSrc2_operandRead (vl := vl) s hsrc2
  generalize readSrc2 vl o s = answer at hread ⊢
  cases hread with
  | stackFault hbad | generalFault hbad => exact absurd hbad hseg
  | wrap _ hwrap => exact absurd hwrap hfit
  | pageFault => exact ⟨_, _, rfl⟩
  | misaligned _ _ htrans | notPlain _ _ htrans => exact absurd hfault (htrans _ hn _)
  | plain _ _ _ hbytes =>
    have hbyte := hbytes n hn
    unfold byteFaults at hfault
    simp [State.dataByte, hfault] at hbyte

theorem exists_byteFaults_of_readSrc2_eq_pf {c : BitVec 32} {a : BitVec 64}
    (h : readSrc2 vl o s = .error (.fault (.pf c a))) :
    ∃ n, ¬ segmentBad vl o s m ∧ ¬ operandWraps vl o s m ∧ n < operandBytes vl ∧ byteFaults vl o s m n c ∧
      a.toNat = operandLinear vl o s m + n := by
  have hread := readSrc2_operandRead (vl := vl) s hsrc2
  rw [h] at hread
  cases hread with
  | pageFault hseg hfit hn hfault haddr => exact ⟨_, hseg, hfit, hn, hfault, haddr⟩

theorem readSrc2_of_operandWraps (hseg : ¬ segmentBad vl o s m) (hwrap : operandWraps vl o s m) :
    readSrc2 vl o s = .error (.refused .addressWrap) := by
  have hread := readSrc2_operandRead (vl := vl) s hsrc2
  generalize readSrc2 vl o s = answer at hread ⊢
  cases hread with
  | wrap => rfl
  | _ => contradiction

theorem readSrc2_of_read_eq_none {n pa : Nat} (hseg : ¬ segmentBad vl o s m) (hfit : ¬ operandWraps vl o s m)
    (htrans : ∀ k < operandBytes vl, ∀ code, ¬ byteFaults vl o s m k code) (halign : ¬ alignmentBad vl o s m)
    (hn : n < operandBytes vl) (hpa : byteMapsTo vl o s m n pa) (hnone : s.mem.read pa = none) :
    readSrc2 vl o s = .error (.refused .notPlainMemory) := by
  have hread := readSrc2_operandRead (vl := vl) s hsrc2
  generalize readSrc2 vl o s = answer at hread ⊢
  cases hread with
  | notPlain => rfl
  | pageFault _ _ hk hfault => exact absurd hfault (htrans _ hk _)
  | plain _ _ _ hbytes =>
    have hbyte := hbytes n hn
    rw [dataByte_of_byteMapsTo hpa, hnone] at hbyte
    cases hbyte
  | _ => contradiction

/-- An operand in plain memory that no check stops is read byte by byte (20 R50, R53). -/
theorem readSrc2_of_plain {src2 : VecVal} (hseg : ¬ segmentBad vl o s m) (hfit : ¬ operandWraps vl o s m)
    (halign : ¬ alignmentBad vl o s m)
    (hplain : ∀ n < operandBytes vl, ∃ pa, byteMapsTo vl o s m n pa ∧ s.mem.read pa = some (byteAt src2 n)) :
    ∃ v, readSrc2 vl o s = .ok v ∧ ∀ n < operandBytes vl, byteAt v n = byteAt src2 n := by
  have hbyte : ∀ n < operandBytes vl, s.dataByte (operandLinear vl o s m + n) = some (byteAt src2 n) := by
    intro n hn
    obtain ⟨pa, hpa, hmem⟩ := hplain n hn
    rw [dataByte_of_byteMapsTo hpa, hmem]
  have hread := readSrc2_operandRead (vl := vl) s hsrc2
  generalize readSrc2 vl o s = answer at hread ⊢
  cases hread with
  | plain _ _ _ hbytes => exact ⟨_, rfl, fun n hn => Option.some.inj ((hbytes n hn).symm.trans (hbyte n hn))⟩
  | notPlain _ _ _ _ hn hnone => exact absurd (hbyte _ hn) (by simp [hnone])
  | pageFault _ _ hn hfault =>
    obtain ⟨pa, hpa, -⟩ := hplain _ hn
    cases hpa.symm.trans hfault
  | _ => contradiction

/-- The memory form of an instruction completes with the bytes read from memory. -/
theorem memoryFormCompletes_of_mem (src2 : VecVal) : memoryFormCompletes vl o m s src2 := by
  intro hready hseg hfit halign hplain
  obtain ⟨v, hread, hbytes⟩ := readSrc2_of_plain hsrc2 hseg hfit halign hplain
  refine ⟨_, (exec_formInstr vl o s).trans (execForm_of_ok (gate_eq_none_of_ready hready) hread), ?_,
    completed_ipIs _ _ _ _, completed_onlyDestAndIp _ _ _ _⟩
  rw [completed_readZmm_dest]
  exact resultValue_destIs o s hbytes

end

theorem exec_of_ready_of_refused {i : Instr} {s : State} {r : Refusal} (hready : ready i.vecLen s)
    (hread : readSrc2 i.vecLen i.operands s = .error (.refused r)) : exec i s = .refused r := by
  rw [exec_eq_execForm, execForm_of_error (gate_eq_none_of_ready hready) hread]
  rfl

end Sys2Proof.Machine

/-! The statements of the family 20_memory. -/

namespace Sys2Proof.Proofs

open Sys2Proof.Machine Sys2Proof.Claims

/-- Settles O18: the segment-level check comes first, and its exception depends on the segment only. -/
theorem segmentLevelFaultsExactly : Obligations.SegmentLevelFaultsExactly := by
  intro i s
  rw [exec_eq_operand_fault (by decide) (by decide), exec_eq_operand_fault (by decide) (by decide)]
  exact ⟨and_congr_right' (exists_congr fun m => and_congr_right readSrc2_eq_ss_iff),
    and_congr_right' (exists_congr fun m => and_congr_right readSrc2_eq_gp_iff)⟩

/-- Settles O19: the page fault reported is one of those `Translate` answers, whichever is picked (log 7). -/
theorem pageFaultExactly : Obligations.PageFaultExactly := by
  refine fun i s => ⟨fun m n code hready hsrc2 hseg hfit hn hfault => ?_, fun c a hexec => ?_⟩
  · obtain ⟨c, a, hread⟩ := readSrc2_of_byteFaults hsrc2 hseg hfit hn hfault
    exact ⟨c, a, (exec_eq_operand_fault (by simp) (by simp)).2 ⟨hready, m, hsrc2, hread⟩⟩
  · obtain ⟨hready, m, hsrc2, hread⟩ := (exec_eq_operand_fault (by simp) (by simp)).1 hexec
    obtain ⟨n, hpf⟩ := exists_byteFaults_of_readSrc2_eq_pf hsrc2 hread
    exact ⟨hready, m, n, hsrc2, hpf⟩

/-- Settles O20: the alignment check comes after every other fault of the operand. -/
theorem alignmentCheckExactly : Obligations.AlignmentCheckExactly := by
  intro i s
  rw [exec_eq_operand_fault (by decide) (by decide)]
  exact and_congr_right' (exists_congr fun m => and_congr_right readSrc2_eq_ac_iff)

/-- Settles O21: the wrap is tested once the segment check has passed (log 16). -/
theorem wrappingOperandRefused : Obligations.WrappingOperandRefused :=
  fun _ _ _ hready hsrc2 hseg hwrap => exec_of_ready_of_refused hready (readSrc2_of_operandWraps hsrc2 hseg hwrap)

/-- Settles O22: plain memory is asked for once no fault check has stopped the operand (log 16). -/
theorem nonPlainOperandRefused : Obligations.NonPlainOperandRefused :=
  fun _ _ _ _ _ hready hsrc2 hseg hfit htrans halign hn hpa hnone =>
    exec_of_ready_of_refused hready (readSrc2_of_read_eq_none hsrc2 hseg hfit htrans halign hn hpa hnone)

/-- Settles O26: the bytes read are those of memory, and the result depends on the second source's bytes only. -/
theorem memoryFormsComplete : Obligations.MemoryFormsComplete :=
  fun _ _ _ src2 hsrc2 => ⟨memoryFormCompletes_of_mem hsrc2 src2, memoryFormCompletes_of_mem hsrc2 src2,
    memoryFormCompletes_of_mem hsrc2 src2⟩

end Sys2Proof.Proofs

/-! What the decoder answered, taken apart: the prefixes, P0 to P2 and the operands (30 R111 to R116). -/

namespace Sys2Proof

open Sys2Proof.Claims

/-- The admitted prefixes `pre` take what is known of the prefixes from `p` to `q` (30 R111). -/
inductive Scans : Prefixes → List Byte → Prefixes → Prop where
  | nil (p : Prefixes) : Scans p [] p
  | seg {p q : Prefixes} {b : Byte} {sg : Seg} {pre : List Byte} (hb : segOfByte b = some sg) (hp : p.seg = none)
    (hpre : Scans { p with seg := some sg } pre q) : Scans p (b :: pre) q
  | addrSize {p q : Prefixes} {pre : List Byte} (hp : p.addrSize = false)
    (hpre : Scans { p with addrSize := true } pre q) : Scans p (0x67#8 :: pre) q

/-- The scan goes past admitted prefixes. -/
theorem Scans.scanPrefixes_append {p q : Prefixes} {pre : List Byte} (h : Scans p pre q) (m : Mode) (bad : Bool)
    (rest : List Byte) : scanPrefixes m p bad (pre ++ rest) = scanPrefixes m q bad rest := by
  induction h with
  | nil p => rfl
  | seg hb hp _ ih => rw [List.cons_append, scanPrefixes_seg hb hp, ih]
  | addrSize hp _ ih => rw [List.cons_append, scanPrefixes_addrSize hp, ih]

/-- A scan that finds nothing forbidden has gone past admitted prefixes only (30 R115). -/
theorem scans_of_scanPrefixes {m : Mode} {p q : Prefixes} {bad : Bool} {bytes rest : List Byte}
    (h : scanPrefixes m p bad bytes = .got (q, false) rest) :
    bad = false ∧ ∃ pre, bytes = pre ++ rest ∧ Scans p pre q := by
  induction bytes generalizing p bad with
  | nil => cases h
  | cons b bytes ih =>
    unfold scanPrefixes at h
    split at h
    next sg hb =>
      split at h
      next => cases h
      next hp =>
        obtain ⟨hbad, pre, hpre, hscans⟩ := ih h
        exact ⟨hbad, b :: pre, congrArg (b :: ·) hpre, .seg hb (by simpa using hp) hscans⟩
    next =>
      split at h
      next hb =>
        split at h
        next => cases h
        next hp =>
          obtain ⟨hbad, pre, hpre, hscans⟩ := ih h
          exact ⟨hbad, b :: pre, congrArg (b :: ·) hpre, hb ▸ .addrSize (by simpa using hp) hscans⟩
      next =>
        split at h
        next => exact absurd (ih h).1 (by decide)
        next =>
          split at h
          next => cases h
          next =>
            cases h
            exact ⟨rfl, [], rfl, .nil _⟩

/-- Admitted prefixes are segment overrides and 67h, each counted once in what is known of them. -/
theorem Scans.counts {p q : Prefixes} {pre : List Byte} (h : Scans p pre q) :
    (∀ b ∈ pre, isSegPrefix b = true ∨ b = 0x67#8) ∧ p.seg.isSome.toNat + pre.countP isSegPrefix = q.seg.isSome.toNat ∧
      p.addrSize.toNat + pre.count 0x67#8 = q.addrSize.toNat := by
  induction h with
  | nil p => simp
  | @seg p q b sg pre hb hp _ ih =>
    obtain ⟨hmem, hsegs, haddrs⟩ := ih
    have hseg : isSegPrefix b = true := by rw [isSegPrefix_eq, hb]; rfl
    have h67 := (isSegPrefix_excludes hseg).1
    refine ⟨List.forall_mem_cons.2 ⟨.inl hseg, hmem⟩, ?_, ?_⟩
    · simpa [hp, hseg, Nat.add_comm] using hsegs
    · simpa [h67] using haddrs
  | @addrSize p q pre hp _ ih =>
    obtain ⟨hmem, hsegs, haddrs⟩ := ih
    have hseg : isSegPrefix 0x67#8 = false := rfl
    refine ⟨List.forall_mem_cons.2 ⟨.inr rfl, hmem⟩, ?_, ?_⟩
    · simpa [hseg] using hsegs
    · simpa [hp, Nat.add_comm] using haddrs

theorem Scans.admitted {p q : Prefixes} {pre : List Byte} (h : Scans p pre q) : admitted pre := by
  obtain ⟨hmem, hsegs, haddrs⟩ := h.counts
  exact ⟨hmem, (Nat.le_add_left _ _).trans (hsegs.trans_le (Bool.toNat_le _)),
    (Nat.le_add_left _ _).trans (haddrs.trans_le (Bool.toNat_le _))⟩

/-- `npfx` is the number of admitted prefixes (30 R112). -/
theorem Scans.count_add_length {p q : Prefixes} {pre : List Byte} (h : Scans p pre q) :
    p.count + pre.length = q.count := by
  induction h with
  | nil p => rfl
  | seg _ hp _ ih =>
    rw [← ih]
    simp [Prefixes.count, hp]
    omega
  | addrSize hp _ ih =>
    rw [← ih]
    simp [Prefixes.count, hp]
    omega

theorem Scans.length_eq_count {q : Prefixes} {pre : List Byte} (h : Scans ⟨none, false⟩ pre q) : pre.length = q.count :=
  (Nat.zero_add _).symm.trans h.count_add_length

/-- The decoder on admitted prefixes and the five fixed bytes (30 R113). -/
theorem Scans.decode_evexBytes {q : Prefixes} {pre : List Byte} (h : Scans ⟨none, false⟩ pre q) {m : Mode} {p0 : Byte}
    (hevex : evexHere m p0 = true) (csD : Bool) (p1 p2 op : Byte) (tail : List Byte) :
    decode m csD (pre ++ evexBytes p0 p1 p2 op tail) = decodeEvex m csD q false p0 p1 p2 op tail := by
  rw [decode, h.scanPrefixes_append, evexBytes, scanPrefixes_of_not_prefix rfl (by decide) rfl (rexPrefix_evex m),
    Parsed.bind_got, decodeBody_evex, if_pos hevex]

/-! The bytes P0, P1, P2 and the opcode byte (30 R82, R110, R115). -/

theorem udVariant_iff (p0 p1 p2 : Byte) : udVariant p0 p1 p2 = true ↔ reservedVariant p0 p1 p2 := by
  have h5 : ∀ b : Byte, field b 5 2 = 3#2 ↔ b.getLsbD 6 = true ∧ b.getLsbD 5 = true := by decide
  have h0 : ∀ b : Byte, field b 0 3 = 0#3 ↔ b.toNat % 8 = 0 := by decide
  have h2 : ∀ b : Byte, field b 2 2 ≠ 0#2 ↔ b.getLsbD 3 = true ∨ b.getLsbD 2 = true := by decide
  simp only [udVariant, reservedVariant, Bool.or_eq_true, Bool.and_eq_true, beq_iff_eq, bne_iff_ne, Bool.not_eq_true',
    h5, h0, h2, or_assoc]

theorem canonical32_iff (p0 p1 p2 : Byte) : canonical32 p0 p1 p2 = true ↔ plain32 p0 p1 p2 := by
  have h4 : ∀ b : Byte, field b 4 4 = 15#4 ↔
      b.getLsbD 7 = true ∧ b.getLsbD 6 = true ∧ b.getLsbD 5 = true ∧ b.getLsbD 4 = true := by decide
  simp only [canonical32, plain32, Bool.and_eq_true, beq_iff_eq, h4, and_assoc]

theorem evexHere_iff (m : Mode) (p0 : Byte) : evexHere m p0 = true ↔ m = .mode64 ∨ noRX p0 := by
  have h6 : ∀ b : Byte, field b 6 2 = 3#2 ↔ b.getLsbD 7 = true ∧ b.getLsbD 6 = true := by decide
  simp only [evexHere, noRX, Bool.or_eq_true, beq_iff_eq, h6]

section
variable {m : Mode} {csD bad : Bool} {p : Prefixes} {p0 p1 p2 op : Byte} (hop : thisOpcode p0 p1 op) (bytes : List Byte)
include hop

/-- Real and V86, forbidden prefixes and reserved variants are #UD, whatever follows the opcode byte (30 R115). -/
theorem decodeEvex_eq_ud (h : bad = true ∨ reservedVariant p0 p1 p2 ∨ m = .real ∨ m = .v86) :
    decodeEvex m csD p bad p0 p1 p2 op bytes = .ud := by
  rw [← isVdbpsadbw_iff] at hop
  rw [← udVariant_iff] at h
  by_cases hm : m = .real ∨ m = .v86
  · simp [decodeEvex, hop, hm]
  · have hud : (bad || udVariant p0 p1 p2) = true := by simpa [hm] using h
    simp [decodeEvex, hop, hm, hud]

variable (hres : ¬ reservedVariant p0 p1 p2)
include hres

theorem decodeEvex_mode64 : decodeEvex .mode64 csD p false p0 p1 p2 op bytes = readOperands p p0 p1 p2 bytes := by
  rw [← isVdbpsadbw_iff] at hop
  rw [← udVariant_iff, Bool.not_eq_true] at hres
  simp [decodeEvex, hop, hres]

/-- In the 32-bit modes 16-bit addressing is refused first, then any spelling but the plain one (30 R109, R110). -/
theorem decodeEvex_is32 (hm : is32 m) : decodeEvex m csD p false p0 p1 p2 op bytes =
    if p.addrSize || !csD then .refused .addr16
    else if canonical32 p0 p1 p2 = false then .refused .evex32
    else readOperands p p0 p1 p2 bytes := by
  rw [← isVdbpsadbw_iff] at hop
  rw [← udVariant_iff, Bool.not_eq_true] at hres
  rcases hm with rfl | rfl <;> simp [decodeEvex, hop, hres]

end

/-- What lets the decoder through to the operands: neither refused nor #UD, in a mode that can spell the form so. -/
structure Admits (m : Mode) (csD : Bool) (p : Prefixes) (p0 p1 p2 op : Byte) : Prop where
  opcode : thisOpcode p0 p1 op
  notReserved : ¬ reservedVariant p0 p1 p2
  mode : m = .mode64 ∨ is32 m ∧ csD = true ∧ p.addrSize = false ∧ plain32 p0 p1 p2

theorem Admits.decodeEvex_eq {m : Mode} {csD : Bool} {p : Prefixes} {p0 p1 p2 op : Byte}
    (h : Admits m csD p p0 p1 p2 op) (bytes : List Byte) :
    decodeEvex m csD p false p0 p1 p2 op bytes = readOperands p p0 p1 p2 bytes := by
  obtain ⟨hop, hres, rfl | ⟨hm, rfl, haddr, hplain⟩⟩ := h
  · exact decodeEvex_mode64 hop bytes hres
  · simp [decodeEvex_is32 hop bytes hres hm, haddr, (canonical32_iff ..).2 hplain]

/-- Each branch of `decodeEvex` but the last stops. -/
theorem admits_of_decodeEvex {m : Mode} {csD bad : Bool} {p : Prefixes} {p0 p1 p2 op : Byte} {bytes rest : List Byte}
    {i : Instr} (h : decodeEvex m csD p bad p0 p1 p2 op bytes = .got i rest) :
    bad = false ∧ Admits m csD p p0 p1 p2 op := by
  unfold decodeEvex at h
  iterate 5
    split at h
    · cases h
  rename_i hop hexec hud hsize hcanon
  rw [Bool.not_eq_true', Bool.not_eq_false, isVdbpsadbw_iff] at hop
  rw [Bool.or_eq_true, not_or, Bool.not_eq_true, udVariant_iff] at hud
  obtain ⟨hbad, hres⟩ := hud
  refine ⟨hbad, hop, hres, ?_⟩
  by_cases hm : m = .mode64
  · exact .inl hm
  · have h32 : is32 m := by cases m <;> simp [is32] at hm hexec ⊢
    obtain ⟨haddr, hcsD⟩ : p.addrSize = false ∧ csD = true := by simpa [hm] using hsize
    exact .inr ⟨h32, hcsD, haddr, (canonical32_iff ..).1 (by simpa [hm] using hcanon)⟩

/-- The bytes of a decoded instruction: admitted prefixes, the five fixed bytes, and what the operands are read from
(30 R113). -/
theorem decode_eq_got {m : Mode} {csD : Bool} {bytes rest : List Byte} {i : Instr}
    (h : decode m csD bytes = .got i rest) :
    ∃ pre p p0 p1 p2 op tail, bytes = pre ++ evexBytes p0 p1 p2 op tail ∧ Scans ⟨none, false⟩ pre p ∧
      evexHere m p0 = true ∧ Admits m csD p p0 p1 p2 op ∧ readOperands p p0 p1 p2 tail = .got i rest := by
  obtain ⟨⟨p, bad⟩, body, hscan, hbody⟩ := Parsed.bind_eq_got h
  obtain ⟨p0, p1, p2, op, tail, rfl, hevex, hgot⟩ := decodeBody_eq_got hbody
  obtain ⟨rfl, hadmits⟩ := admits_of_decodeEvex hgot
  obtain ⟨-, pre, rfl, hpre⟩ := scans_of_scanPrefixes hscan
  exact ⟨pre, p, p0, p1, p2, op, tail, rfl, hpre, hevex, hadmits, hadmits.decodeEvex_eq tail ▸ hgot⟩

/-! The operands of a decoded instruction (30 R84, R112, R114). -/

/-- Without extension bits DEST and SRC1 are among the low 8 registers (30 R84, R110). -/
theorem fits32_of_plain32 {p0 p1 p2 : Byte} (h : plain32 p0 p1 p2) (modrm : Byte) :
    vecFits32 (destOf p0 modrm) = true ∧ vecFits32 (src1Of p1 p2) = true := by
  obtain ⟨h7, -, -, h4, h16, h23⟩ := h
  constructor
  · rw [destOf, h7, h4]
    generalize field modrm 3 3 = v
    revert v
    decide
  · rw [src1Of, h23]
    revert p1
    decide

/-- `z` = 1 with `aaa` = 000b is a reserved variant (30 R89). -/
theorem not_zeroing_without_mask {p0 p1 p2 : Byte} (h : ¬ reservedVariant p0 p1 p2) :
    ¬ (p2.getLsbD 7 = true ∧ p2.toNat % 8 = 0) :=
  fun hz => h (.inr (.inr (.inr (.inl hz))))

theorem nsib_eq_sibBytes (x : Src2) : x.nsib = sibBytes x := by
  obtain _ | (_ | _ | _ | _) := x <;> rfl

theorem ndisp_eq_dispBytes (x : Src2) : x.ndisp = dispBytes x := by
  obtain _ | (_ | _ | _ | _) := x <;> rfl

/-- An instruction of the greatest length: two prefixes, a SIB byte and a four-byte displacement (30 R112). -/
def longestForm : Instr :=
  .vdbpsadbw128 ⟨⟨some .es, true⟩, 1, 2, .mem (.sib 5 0 2 (.d32 0x80000001)), 0, false, 0x1B⟩

theorem rowMatch_eq (vl : VecLen) : rowMatch vl = [0x62#8, 0x03#8, 0x05#8, 0#1 ++ vl.ll ++ 0#5, 0x42#8] := by
  cases vl <;> rfl

theorem ll_vecLen_formOf {ll : BitVec 2} (h : ll ≠ 3#2) (o : Operands) : (formOf ll o).vecLen.ll = ll := by
  have hcases : ∀ ll : BitVec 2, ll = 0#2 ∨ ll = 1#2 ∨ ll = 2#2 ∨ ll = 3#2 := by decide
  obtain rfl | rfl | rfl | rfl := hcases ll
  · rfl
  · rfl
  · rfl
  · exact absurd rfl h

/-- The five fixed bytes of a form that is no reserved variant, under the row mask (30 R114). -/
theorem zipWith_rowMask {p0 p1 p2 op : Byte} (hop : thisOpcode p0 p1 op) (hres : ¬ reservedVariant p0 p1 p2)
    (o : Operands) : List.zipWith (· &&& ·) [0x62#8, p0, p1, p2, op] rowMask =
      rowMatch (formOf (field p2 5 2) o).vecLen := by
  obtain ⟨h00, h01, h10, h11, rfl⟩ := hop
  simp only [reservedVariant, not_or, Bool.not_eq_true, Bool.not_eq_false] at hres
  obtain ⟨hll, hb, hw, -, ⟨h03, h02⟩, h12⟩ := hres
  have hp0 : ∀ b : Byte, b.getLsbD 0 = true → b.getLsbD 1 = true → b.getLsbD 3 = false → b.getLsbD 2 = false →
      b &&& 0x0F#8 = 0x03#8 := by decide
  have hp1 : ∀ b : Byte, b.getLsbD 0 = true → b.getLsbD 1 = false → b.getLsbD 7 = false → b.getLsbD 2 = true →
      b &&& 0x87#8 = 0x05#8 := by decide
  have hp2 : ∀ b : Byte, b.getLsbD 4 = false → b &&& 0x70#8 = 0#1 ++ field b 5 2 ++ 0#5 := by decide
  have hl : ∀ b : Byte, ¬ (b.getLsbD 6 = true ∧ b.getLsbD 5 = true) → field b 5 2 ≠ 3#2 := by decide
  rw [rowMatch_eq, ll_vecLen_formOf (hl p2 hll), rowMask, ← hp0 p0 h00 h01 h03 h02, ← hp1 p1 h10 h11 hw h12,
    ← hp2 p2 hb]
  rfl

/-! Where the decoder stops after prefixes (30 R109 to R117). -/

theorem decodeBody_of_not_evexHere {m : Mode} {p0 : Byte} (h : evexHere m p0 = false) (csD : Bool) (p : Prefixes)
    (bad : Bool) (tail : List Byte) :
    decodeBody m csD p bad (0x62#8 :: p0 :: tail) = .refused .notThisInstruction := by
  simp [decodeBody, h]

/-- After admitted prefixes 62h begins the body, with whether 67h was among them. -/
theorem decode_admitted (m : Mode) (csD : Bool) {pre : List Byte} (h : admitted pre) :
    ∃ q : Prefixes, q.addrSize = decide (0x67#8 ∈ pre) ∧
      ∀ tail, decode m csD (pre ++ 0x62#8 :: tail) = decodeBody m csD q false (0x62#8 :: tail) := by
  obtain ⟨hmem, honce⟩ := h
  have hclean : pre.any isForbidden = false := by
    refine List.any_eq_false.2 fun b hb hforb => ?_
    obtain ⟨hseg, h67⟩ := isForbidden_excludes hforb
    simpa [hseg, h67] using hmem b hb
  obtain ⟨q, hq, hbody, -⟩ := decode_append m csD (fun b hb => (hmem b hb).imp_right .inl) honce
  exact ⟨q, hq, fun tail => hclean ▸ hbody _ tail rfl (by decide) rfl (rexPrefix_evex m)⟩

/-- X = 1 without SIB is refused at ModRM (30 R117). -/
theorem readOperands_xNoSib {p0 modrm : Byte} (hx : p0.getLsbD 6 = false) (hmod : modrm.toNat < 192)
    (hrm : modrm.toNat % 8 ≠ 4) (p : Prefixes) (p1 p2 : Byte) (tail : List Byte) :
    readOperands p p0 p1 p2 (modrm :: tail) = .refused .xNoSib := by
  have hfields : ∀ b : Byte, b.toNat < 192 → b.toNat % 8 ≠ 4 → field b 6 2 ≠ 3#2 ∧ field b 0 3 ≠ 4#3 := by decide
  obtain ⟨h3, h4⟩ := hfields modrm hmod hrm
  simp only [readOperands, readByte_cons, Parsed.bind_got, readSrc2Field, if_neg h3, if_neg h4, hx, Bool.not_false,
    if_true, Parsed.bind_refused]

/-- The scan stops at a segment override or 67h where it has seen one (30 R111). -/
theorem scanPrefixes_repeated (m : Mode) {p : Prefixes} {bad : Bool} {pre : List Byte} (tail : List Byte)
    (hpre : ∀ b ∈ pre, isSegPrefix b = true ∨ b = 0x67#8)
    (h : ¬ (p.seg.isSome.toNat + pre.countP isSegPrefix ≤ 1 ∧ p.addrSize.toNat + pre.count 0x67#8 ≤ 1)) :
    scanPrefixes m p bad (pre ++ tail) = .refused .prefixes := by
  induction pre generalizing p with
  | nil => exact absurd ⟨p.seg.isSome.toNat_le, p.addrSize.toNat_le⟩ h
  | cons b pre ih =>
    obtain ⟨hb, htail⟩ := List.forall_mem_cons.1 hpre
    rcases hb with hb | rfl
    · obtain ⟨sg, hsg⟩ := Option.isSome_iff_exists.1 (isSegPrefix_eq b ▸ hb)
      have h67 := (isSegPrefix_excludes hb).1
      cases hp : p.seg with
      | some sg' => simp [scanPrefixes, hsg, hp]
      | none =>
        rw [List.cons_append, scanPrefixes_seg hsg hp]
        refine ih htail ?_
        simpa [hp, hb, h67, Nat.add_comm] using h
    · have hseg : isSegPrefix 0x67#8 = false := rfl
      cases hp : p.addrSize with
      | true => simp [scanPrefixes, segOfByte, hp]
      | false =>
        rw [List.cons_append, scanPrefixes_addrSize hp]
        refine ih htail ?_
        simpa [hp, hseg, Nat.add_comm] using h

end Sys2Proof

/-! The effective address as an integer (30 R100 to R106), and the segment of the operand (R107). -/

namespace Sys2Proof.Machine

open Sys2Proof.Claims

theorem step_of_ud {s : State} (h : s.decoded = .ud) : step s = .fault .ud := by
  simp [step, h, raise]

theorem ofInt_toNat {w : Nat} (v : BitVec w) : BitVec.ofInt w v.toNat = v := by
  rw [BitVec.ofInt_natCast, BitVec.ofNat_toNat, BitVec.setWidth_eq]

/-- A one-byte displacement is scaled by VL/8, a four-byte one is not (30 R103, R104). -/
theorem dispValue_eq (vl : VecLen) (d : Disp) : dispValue vl.bytes d = BitVec.ofInt 64 (dispInt vl d) := by
  cases d with
  | none => rfl
  | d8 d =>
    rw [dispValue, dispInt, BitVec.ofInt_mul, bytes_eq_operandBytes, BitVec.ofInt_natCast]
    rfl
  | d32 d => rfl

theorem scaledIndex_eq (s : State) (a32 : Bool) (i : BitVec 4) (scale : BitVec 2) : scaledIndex s a32 i scale =
    BitVec.ofInt 64 (indexInt (fun r => (baseReg s a32 r).toNat) i scale) := by
  unfold scaledIndex indexInt
  split
  · rfl
  · have hmul : ((baseReg s a32 i).toNat * 2 ^ scale.toNat : Int) =
        ((baseReg s a32 i).toNat <<< scale.toNat : Nat) := by
      simp [Nat.shiftLeft_eq]
    rw [hmul, BitVec.ofInt_natCast]
    apply BitVec.eq_of_toNat_eq
    rw [BitVec.toNat_shiftLeft, BitVec.toNat_ofNat]
    rfl

/-- The absolute form is the low half of the sign-extended displacement (30 R106). -/
theorem low32_signExtend (d : BitVec 32) : low32 (d.signExtend 64) = d.setWidth 64 := by
  have hlow : (d.signExtend 64).setWidth 32 = d := by
    ext i hi
    simp [BitVec.getLsbD_signExtend, hi]
    omega
  rw [low32, hlow]

/-- The effective address is the sum of 30 R100 and R101 at the address size; outside Mode64 the form without base and
SIB has no next instruction's address in it (R102, R106). -/
theorem effAddr_eq (vl : VecLen) (s : State) (p : Prefixes) (next : Int) (m : MemOperand) :
    effAddr s p vl.bytes (BitVec.ofInt 64 next) m = atSize (addr32 s p) (BitVec.ofInt 64
      (addrSum vl (fun r => (baseReg s (addr32 s p) r).toNat) (if s.mode = .mode64 then next else 0) m)) := by
  cases m with
  | base b d => rw [effAddr, addrSum, BitVec.ofInt_add, ofInt_toNat, dispValue_eq]
  | ripDisp d =>
    rw [effAddr, addrSum]
    split
    next hm => simp [addr32, hm, BitVec.signExtend, BitVec.ofInt_add]
    next hm => simp [addr32, hm, atSize, ← low32_signExtend, BitVec.signExtend]
  | sib b i sc d =>
    rw [effAddr, addrSum, BitVec.ofInt_add, BitVec.ofInt_add, ofInt_toNat, dispValue_eq, scaledIndex_eq]
  | sibNoBase i sc d =>
    rw [effAddr, addrSum, BitVec.ofInt_add, scaledIndex_eq]
    rfl

/-- What an address size keeps of an integer. -/
theorem toNat_atSize_ofInt (a32 : Bool) (x : Int) :
    ((atSize a32 (BitVec.ofInt 64 x)).toNat : Int) = x % (if a32 then 2 ^ 32 else 2 ^ 64) := by
  have h64 : ((BitVec.ofInt 64 x).toNat : Int) = x % 2 ^ 64 := by
    rw [BitVec.toNat_ofInt]
    omega
  cases a32 with
  | false => exact h64
  | true =>
    rw [atSize, if_pos rfl, toNat_low32, if_pos rfl, Int.natCast_mod, h64]
    exact Int.emod_emod_of_dvd x (by decide)

theorem toNat_baseReg (s : State) (a32 : Bool) (r : BitVec 4) :
    (baseReg s a32 r).toNat = if a32 then (s.readGpr r).toNat % 2 ^ 32 else (s.readGpr r).toNat := by
  cases a32
  · rfl
  · exact toNat_low32 _

theorem operandAddr_toNat (vl : VecLen) (o : Operands) (s : State) (m : MemOperand) :
    ((operandAddr vl o s m).toNat : Int) =
      addrSum vl (fun r => (baseReg s (addr32 s o.prefixes) r).toNat)
          (if s.mode = .mode64 then s.rip.toNat + o.ilen else 0) m %
        (if addr32 s o.prefixes then 2 ^ 32 else 2 ^ 64) := by
  have hnext : s.rip + BitVec.ofNat 64 o.ilen = BitVec.ofInt 64 (s.rip.toNat + o.ilen) := by
    rw [BitVec.ofInt_add, ofInt_toNat, BitVec.ofInt_natCast]
  rw [operandAddr, hnext, effAddr_eq, toNat_atSize_ofInt]

/-- In Mode64 67h decides the address size (30 R105). -/
theorem operandAddr_of_mode64 (vl : VecLen) (o : Operands) {s : State} (m : MemOperand) (h : s.mode = .mode64) :
    ((operandAddr vl o s m).toNat : Int) = addrSum vl (fun r => (baseReg s o.prefixes.addrSize r).toNat)
      (s.rip.toNat + o.ilen) m % (if o.prefixes.addrSize then 2 ^ 32 else 2 ^ 64) := by
  simp [operandAddr_toNat, addr32, h]

/-- Outside Mode64 addressing is 32-bit, whatever the prefixes (30 R106, log 23). -/
theorem operandAddr_of_ne_mode64 (vl : VecLen) (o : Operands) {s : State} (m : MemOperand) (h : s.mode ≠ .mode64) :
    ((operandAddr vl o s m).toNat : Int) = addrSum vl (fun r => (s.readGpr r).toNat % 2 ^ 32) 0 m % 2 ^ 32 := by
  simp [operandAddr_toNat, addr32, h, toNat_baseReg]

/-- The default segment depends on the base register's number only (30 R107). -/
theorem defaultSeg_eq (m : MemOperand) :
    defaultSeg m = if baseOf m = some 4 ∨ baseOf m = some 5 then .ss else .ds := by
  cases m <;> simp [defaultSeg, baseOf, baseSeg]

end Sys2Proof.Machine

/-! The statements of the family 30_encoding. -/

namespace Sys2Proof.Proofs

open Sys2Proof.Machine Sys2Proof.Claims

/-- Settles O2: `decode_encode` in Mode64. -/
theorem decodeEncodeMode64 : Obligations.DecodeEncodeMode64 :=
  fun _ _ rest hwf => decode_encode hwf (.inl rfl) rest

/-- Settles O3: `decode_encode` in the 32-bit modes. -/
theorem decodeEncode32BitModes : Obligations.DecodeEncode32BitModes :=
  fun _ _ rest hm hwf hfits => decode_encode hwf (.inr ⟨hm, rfl, hfits⟩) rest

/-- Settles O4: what gets to its operands is no reserved variant and, in a 32-bit mode, spelled plainly. -/
theorem decodedIsWellFormed : Obligations.DecodedIsWellFormed := by
  intro m csD bytes i rest h
  obtain ⟨pre, p, p0, p1, p2, op, tail, rfl, -, -, ⟨-, hres, hm⟩, hread⟩ := decode_eq_got h
  obtain ⟨modrm, own, imm, src2, -, -, hsrc2, hfits, rfl, -⟩ := readOperands_eq_got hread
  refine ⟨?_, hm.imp_right fun ⟨h32, hcsD, haddr, hplain⟩ => ⟨h32, hcsD, ?_⟩⟩
  · have hzero : ∀ b : Byte, ¬ (b.getLsbD 7 = true ∧ b.toNat % 8 = 0) →
        (b.getLsbD 7 && field b 0 3 == 0) = false := by decide
    rw [Instr.wf, formOf_operands, Operands.wf, hsrc2, hzero p2 (not_zeroing_without_mask hres)]
    rfl
  · obtain ⟨hdest, hsrc1⟩ := fits32_of_plain32 hplain modrm
    obtain ⟨-, h6, h5, -⟩ := hplain
    simp [Instr.fits32, hdest, hsrc1, hfits h6 h5, haddr]

/-- Settles O5: the parts of the bytes are those that `ilen` counts, and the longest form is an encoding. -/
theorem decodedLength : Obligations.DecodedLength := by
  refine ⟨fun m csD bytes i rest h => ?_, fun o hp hsrc2 => ?_, ?_⟩
  · obtain ⟨-, hmin, hmax⟩ := Laws.EncodedLength.of_operands i
    obtain ⟨pre, p, p0, p1, p2, op, tail, rfl, hpre, -, -, hread⟩ := decode_eq_got h
    obtain ⟨modrm, own, imm, src2, rfl, hown, -, -, rfl, -⟩ := readOperands_eq_got hread
    rw [formOf_operands] at hmin hmax ⊢
    refine ⟨pre, _, rfl, hpre.admitted, hpre.length_eq_count ▸ Laws.EncodedLength.prefix_bound p, ?_, ?_, hmin, hmax⟩
    · rw [Operands.ilen, hpre.length_eq_count, nsib_eq_sibBytes, ndisp_eq_dispBytes]
    · simp [Operands.ilen, evexBytes, hown, hpre.length_eq_count]
      omega
  · obtain ⟨r, hr⟩ | ⟨b, hb⟩ := hsrc2
    · rw [Operands.ilen, hp, hr]
      rfl
    · rw [Operands.ilen, hp, hb]
      rfl
  · exact ⟨encode longestForm ++ [], longestForm, decode_encode rfl (.inl rfl) [], rfl⟩

/-- Settles O6: prefixes, P0 to P2 and operands are each read the same whatever follows. -/
theorem decodeReadsOwnBytesOnly : Obligations.DecodeReadsOwnBytesOnly := by
  intro m csD bytes i rest h
  obtain ⟨pre, p, p0, p1, p2, op, tail, rfl, hpre, hevex, hadmits, hread⟩ := decode_eq_got h
  obtain ⟨modrm, own, imm, src2, rfl, -, -, -, -, hagain⟩ := readOperands_eq_got hread
  refine ⟨pre ++ evexBytes p0 p1 p2 op (modrm :: own ++ [imm]), by simp [evexBytes], fun rest' => ?_⟩
  have hsplit : pre ++ evexBytes p0 p1 p2 op (modrm :: own ++ [imm]) ++ rest' =
      pre ++ evexBytes p0 p1 p2 op (modrm :: own ++ imm :: rest') := by simp [evexBytes]
  rw [hsplit, hpre.decode_evexBytes hevex, hadmits.decodeEvex_eq, hagain]

/-- Settles O7: each order is two steps of the scan, to the same prefixes. -/
theorem prefixOrderIsFree : Obligations.PrefixOrderIsFree := by
  intro m csD b bytes hb
  obtain ⟨sg, hsg⟩ := Option.isSome_iff_exists.1 (isSegPrefix_eq b ▸ hb)
  rw [decode, decode, scanPrefixes_addrSize rfl, scanPrefixes_seg hsg rfl, scanPrefixes_seg hsg rfl,
    scanPrefixes_addrSize rfl]

/-- Settles O8: what lets the decoder through to the operands is the row of the table. -/
theorem decodedMatchesTableRow : Obligations.DecodedMatchesTableRow := by
  intro m csD bytes i rest h
  obtain ⟨pre, p, p0, p1, p2, op, tail, rfl, hpre, -, ⟨hop, hres, -⟩, hread⟩ := decode_eq_got h
  obtain ⟨modrm, own, imm, src2, -, -, -, -, rfl, -⟩ := readOperands_eq_got hread
  exact ⟨pre, p0, p1, p2, op, tail, rfl, hpre.admitted, zipWith_rowMask hop hres _, not_zeroing_without_mask hres⟩

/-- Settles O9: each row of 30 R115 in the bytes meets `decodeEvex_eq_ud` after its prefixes, and the state's rows meet
the gate. -/
theorem reservedVariantsRaiseUd : Obligations.ReservedVariantsRaiseUd := by
  refine ⟨fun m csD pre p0 p1 p2 op tail hpre honce hm hop hud => ?_,
    fun csD pre rex p0 p1 p2 op tail ⟨hpre, honce⟩ hlo hhi hop => ?_,
    fun i s => (udExactlyOnStateConditions i s).2, fun s => step_of_ud⟩
  · obtain ⟨q, -, hbody, -⟩ := decode_append m csD hpre honce
    rw [evexBytes, hbody _ _ rfl (by decide) rfl (rexPrefix_evex m), decodeBody_evex,
      if_pos ((evexHere_iff m p0).2 hm)]
    exact decodeEvex_eq_ud hop tail (hud.imp_left List.any_eq_true.2)
  · obtain ⟨q, -, -, hrex⟩ := decode_append .mode64 csD (fun b hb => (hpre b hb).imp_right .inl) honce
    rw [hrex rex _ ((rexPrefix_iff _ rex).2 ⟨rfl, hlo, hhi⟩), evexBytes, decodeBody_evex,
      if_pos ((evexHere_iff .mode64 p0).2 (.inl rfl))]
    exact decodeEvex_eq_ud hop tail (.inl rfl)

/-- Settles O10: the decoder comes to ModRM and stops there. -/
theorem xWithoutSibRefused : Obligations.XWithoutSibRefused := by
  intro csD pre p0 p1 p2 op modrm tail hpre hop hres hx hmod hrm
  obtain ⟨q, -, hbody⟩ := decode_admitted .mode64 csD hpre
  rw [evexBytes, hbody, decodeBody_evex, if_pos ((evexHere_iff .mode64 p0).2 (.inl rfl)), decodeEvex_mode64 hop _ hres,
    readOperands_xNoSib hx hmod hrm]

/-- Settles O11: the address size is the first of the refusals in the 32-bit modes (log 10). -/
theorem sixteenBitAddressingRefused : Obligations.SixteenBitAddressingRefused := by
  intro m csD pre p0 p1 p2 op tail hm hpre hRX hop hres hsize
  obtain ⟨q, hq, hbody⟩ := decode_admitted m csD hpre
  have h16 : (q.addrSize || !csD) = true := by simpa [hq, or_comm] using hsize
  rw [evexBytes, hbody, decodeBody_evex, if_pos ((evexHere_iff m p0).2 (.inr hRX)), decodeEvex_is32 hop _ hres hm,
    if_pos h16]

/-- Settles O12: bits 7:6 of P0 are tested as soon as it is read, the other extension bits after the address size. -/
theorem extensionBitsIn32BitModes : Obligations.ExtensionBitsIn32BitModes := by
  intro m pre p0 p1 p2 op tail hm hpre
  refine ⟨fun hRX csD => ?_, fun hRX hop hres h67 hplain => ?_⟩
  · obtain ⟨q, -, hbody⟩ := decode_admitted m csD hpre
    have hne : m ≠ .mode64 := by rcases hm with rfl | rfl <;> decide
    have hevex : evexHere m p0 = false := by simp [← Bool.not_eq_true, evexHere_iff, hne, hRX]
    rw [hbody, decodeBody_of_not_evexHere hevex]
  · obtain ⟨q, hq, hbody⟩ := decode_admitted m true hpre
    have h32 : ¬ (q.addrSize || !true) = true := by simp [hq, h67]
    rw [← canonical32_iff, Bool.not_eq_true] at hplain
    rw [evexBytes, hbody, decodeBody_evex, if_pos ((evexHere_iff m p0).2 (.inr hRX)), decodeEvex_is32 hop _ hres hm,
      if_neg h32, if_pos hplain]

/-- Settles O13: the scan stops before the body is read (log 10). -/
theorem repeatedPrefixesRefused : Obligations.RepeatedPrefixesRefused := by
  intro m csD pre tail hpre honce
  rw [decode, scanPrefixes_repeated m tail hpre (by simpa [prefixesOnce] using honce), Parsed.bind_refused]

/-- Settles O42: `operandAddr_of_mode64` with the full registers. -/
theorem effectiveAddress64 : Obligations.EffectiveAddress64 := by
  intro vl o s m hm hsize
  rw [operandAddr_of_mode64 vl o m hm, hsize]
  rfl

/-- Settles O43: `operandAddr_of_mode64` with the low half of the registers, and `operandAddr_of_ne_mode64`. -/
theorem effectiveAddress32 : Obligations.EffectiveAddress32 := by
  refine fun vl o s m => ⟨fun hm hsize => ?_, fun hm _ _ => operandAddr_of_ne_mode64 vl o m ?_⟩
  · simp only [operandAddr_of_mode64 vl o m hm, hsize, toNat_baseReg, if_true]
  · rcases hm with hm | hm <;> simp [hm]

/-- Settles O44: outside Mode64 neither the prefixes nor CS.D enter the address (log 23). -/
theorem effectiveAddressOfOtherTerms : Obligations.EffectiveAddressOfOtherTerms := by
  refine fun vl o s m h => operandAddr_of_ne_mode64 vl o m ?_
  rcases h with hm | hm | ⟨hm | hm, -⟩ <;> simp [hm]

/-- Settles O1, by evaluating the decoder on the three words. -/
theorem workedEncodingsDecode : Obligations.WorkedEncodingsDecode :=
  ⟨by decide, by decide, by decide⟩

/-- Settles O45: the default segment, or the override where the mode heeds it. -/
theorem operandSegment : Obligations.OperandSegment := by
  refine ⟨by decide, fun s p m => ⟨fun hp => ?_, fun sg hp hsg => ?_, fun sg hp hm hfs hgs => ?_⟩⟩
  · rw [operandSeg, hp]
    exact defaultSeg_eq m
  · rw [operandSeg, hp]
    exact if_neg (by tauto)
  · rw [operandSeg, hp]
    exact if_pos ⟨hm, hfs, hgs⟩

end Sys2Proof.Proofs

/-! Values by their elements (00 R9), and the range of the sums (40 R142). -/

namespace Sys2Proof.Machine

open Sys2Proof.Claims

/-- A bit of a value is a bit of the element it lies in. -/
theorem getLsbD_eq_elem {n w : Nat} (hw : 0 < w) (v : BitVec n) (b : Nat) :
    v.getLsbD b = (elem w v (b / w)).getLsbD (b % w) := by
  rw [getLsbD_elem, Nat.div_add_mod, decide_eq_true (Nat.mod_lt b hw), Bool.true_and]

/-- Values of which all elements agree are equal. -/
theorem eq_of_elem_eq {w m : Nat} (hw : 0 < w) {x y : BitVec (w * m)} (h : ∀ j < m, elem w x j = elem w y j) :
    x = y := by
  apply BitVec.eq_of_getLsbD_eq
  intro b hb
  rw [getLsbD_eq_elem hw x, getLsbD_eq_elem hw y, h _ (Nat.div_lt_of_lt_mul hb)]

/-- Elements of which all parts agree are equal. -/
theorem elem_eq_of_elem_eq {n w m i i' : Nat} (hw : 0 < w) {v v' : BitVec n}
    (h : ∀ j < m, elem w v (m * i + j) = elem w v' (m * i' + j)) : elem (w * m) v i = elem (w * m) v' i' := by
  refine eq_of_elem_eq hw fun j hj => ?_
  have hfit : w * j + w ≤ w * m := Nat.mul_le_mul_left w hj
  rw [elem_elem _ _ _ _ _ hfit, elem_elem _ _ _ _ _ hfit, h j hj]

theorem dword_eq_of_byteAt_eq {x y : BitVec 32} (h : ∀ k < 4, byteAt x k = byteAt y k) : x = y :=
  eq_of_elem_eq (w := 8) (m := 4) (by decide) h

/-- Equal lanes have equal bytes. -/
theorem byteAt_eq_of_laneAt_eq {v v' : VecVal} {n b : Nat} (h : laneAt v n = laneAt v' n) (hb : b / 16 = n) :
    byteAt v b = byteAt v' b := by
  have hlane (x : VecVal) : byteAt (laneAt x n) (b % 16) = byteAt x b := by
    rw [byteAt, laneAt, elem_elem 8 16 x _ _ (by omega), ← hb, Nat.div_add_mod]
  rw [← hlane v, h, hlane]

@[simp] theorem absDiff_self (a : Byte) : absDiff a a = 0 := by
  simp [absDiff]

/-- The greatest difference of two bytes is that of 00h and FFh. -/
theorem absDiff_eq_255_iff (a b : Byte) :
    absDiff a b = 255 ↔ (a = 0#8 ∧ b = 0xFF#8) ∨ (a = 0xFF#8 ∧ b = 0#8) := by
  have ha := a.isLt
  have hb := b.isLt
  simp only [absDiff, ← BitVec.toNat_inj, BitVec.toNat_ofNat]
  omega

@[simp] theorem sad4_self (a : BitVec 32) : sad4 a a = 0 := by
  simp [sad4]

theorem sad4_le (a b : BitVec 32) : sad4 a b ≤ 1020 :=
  Nat.add_le_add (Nat.add_le_add (Nat.add_le_add (absDiff_le _ _) (absDiff_le _ _)) (absDiff_le _ _)) (absDiff_le _ _)

/-- A sum of four differences of at most 255 reaches 1020 when each is 255. -/
theorem sad4_eq_1020_iff (a b : BitVec 32) :
    sad4 a b = 1020 ↔ ∀ k < 4, absDiff (byteAt a k) (byteAt b k) = 255 := by
  have hle (k : Nat) := absDiff_le (byteAt a k) (byteAt b k)
  constructor
  · intro h k hk
    have h0 := hle 0
    have h1 := hle 1
    have h2 := hle 2
    have h3 := hle 3
    unfold sad4 at h
    interval_cases k <;> omega
  · intro h
    rw [sad4, h 0 (by decide), h 1 (by decide), h 2 (by decide), h 3 (by decide)]

theorem byteDiff_le (x y : VecVal) (i j : Nat) : byteDiff x i y j ≤ 255 := by
  rw [← natCast_absDiff]
  exact_mod_cast absDiff_le _ _

theorem sadOf_le (src1 src2 : VecVal) (imm8 : BitVec 8) (j : Nat) : sadOf src1 src2 imm8 j ≤ 1020 :=
  add_le_add (add_le_add (add_le_add (byteDiff_le ..) (byteDiff_le ..)) (byteDiff_le ..)) (byteDiff_le ..)

/-! What enters a result word (40 R144, R145), and the shuffle for one immediate (R148). -/

/-- The four bytes of SRC1 and the four of TMP1 that a result word is computed from (40 R145). -/
theorem wordAt_tmpDest_congr {vl : VecLen} {a a' t t' : VecVal} {j : Nat} (hj : j < resultWords vl)
    (ha : ∀ k < 4, byteAt a (8 * (j / 4) + 4 * (j % 4 / 2) + k) = byteAt a' (8 * (j / 4) + 4 * (j % 4 / 2) + k))
    (ht : ∀ k < 4, byteAt t (8 * (j / 4) + j % 4 + k) = byteAt t' (8 * (j / 4) + j % 4 + k)) :
    wordAt (tmpDest vl a t) j = wordAt (tmpDest vl a' t') j := by
  rw [← words_eq_resultWords] at hj
  have hr : j % 4 < 4 := Nat.mod_lt j (by decide)
  have hstationary : dwordAt (qwordAt a (j / 4)) (j % 4 / 2) = dwordAt (qwordAt a' (j / 4)) (j % 4 / 2) := by
    refine dword_eq_of_byteAt_eq fun k hk => ?_
    rw [byteAt_stationary a _ hr hk, byteAt_stationary a' _ hr hk, ha k hk]
  have hsliding :
      (qwordAt t (j / 4)).extractLsb' (8 * (j % 4)) 32 = (qwordAt t' (j / 4)).extractLsb' (8 * (j % 4)) 32 := by
    refine dword_eq_of_byteAt_eq fun k hk => ?_
    rw [byteAt_sliding_qword t _ hr hk, byteAt_sliding_qword t' _ hr hk, ht k hk]
  rw [wordAt_tmpDest _ _ _ _ hj, wordAt_tmpDest _ _ _ _ hj, sadWord, sadWord, hstationary, hsliding]

/-- The shuffle keeps every byte in its lane (40 R131). -/
theorem shuffledByte_div (imm8 : BitVec 8) (b : Nat) : shuffledByte imm8 b / 16 = b / 16 := by
  unfold shuffledByte
  omega

/-- A dword of a lane of TMP1, for the selectors of an immediate (40 R131). -/
theorem dwordAt_tmp1_lane {vl : VecLen} (src2 : VecVal) (imm8 : BitVec 8) {n d : Nat} (hn : 16 * n < operandBytes vl)
    (hd : d < 4) :
    dwordAt (tmp1 vl src2 imm8) (4 * n + d) = dwordAt src2 (4 * n + imm8.toNat / 4 ^ d % 4) := by
  have hi : 4 * n + d < vl.bits / 32 := by
    cases vl <;> simp only [operandBytes, VecLen.bits] at hn ⊢ <;> omega
  have hdiv : (4 * n + d) / 4 = n := by omega
  have hmod : (4 * n + d) % 4 = d := by omega
  rw [dwordAt_tmp1 _ _ _ _ hi, hdiv, hmod]

/-- Under E4h, of which each selector names its own dword, TMP1 is SRC2 (40 R148). -/
theorem byteAt_tmp1_E4 {vl : VecLen} (v : VecVal) {b : Nat} (hb : b < operandBytes vl) :
    byteAt (tmp1 vl v 0xE4) b = byteAt v b := by
  have hsel : ∀ d < 4, (0xE4 : BitVec 8).toNat / 4 ^ d % 4 = d := by decide
  have hself : shuffledByte 0xE4 b = b := by
    rw [shuffledByte, hsel _ (by omega)]
    omega
  rw [byteAt_tmp1 v 0xE4 hb, hself]

/-- Under 4Eh, of which each selector names the dword two places on, the qwords of a lane change places (40 R148). -/
theorem qwordAt_tmp1_4E {vl : VecLen} (v : VecVal) {n h : Nat} (hn : 16 * n < operandBytes vl) (hh : h < 2) :
    qwordAt (tmp1 vl v 0x4E) (2 * n + h) = qwordAt v (2 * n + (1 - h)) := by
  have hsel : ∀ d < 4, (0x4E : BitVec 8).toNat / 4 ^ d % 4 = (d + 2) % 4 := by decide
  refine elem_eq_of_elem_eq (w := 32) (m := 2) (by decide) fun d hd => ?_
  have hold : 2 * (2 * n + h) + d = 4 * n + (2 * h + d) := by ring
  have hnew : 2 * (2 * n + (1 - h)) + d = 4 * n + (2 * h + d + 2) % 4 := by omega
  rw [hold, hnew, ← hsel _ (by omega)]
  exact dwordAt_tmp1_lane v 0x4E hn (by omega)

/-- Word `4q` of superblock `q` compares the same four bytes of both sources (40 R148). -/
theorem wordAt_tmpDest_of_qwordAt_eq {vl : VecLen} {v t : VecVal} {q : Nat} (hq : 4 * q < resultWords vl)
    (h : qwordAt t q = qwordAt v q) : wordAt (tmpDest vl v t) (4 * q) = 0 := by
  rw [← words_eq_resultWords] at hq
  have hdiv : 4 * q / 4 = q := by omega
  have hmod : 4 * q % 4 = 0 := by omega
  rw [wordAt_tmpDest _ _ _ _ hq, hdiv, hmod, h]
  exact congrArg (BitVec.ofNat 16) (sad4_self (dwordAt (qwordAt v q) 0))

/-- Equal sources give words that are not 0 in the other places of a superblock, since they compare shifted bytes
(40 R148): here byte 4 is 1 and the others are 0. -/
theorem exists_wordAt_tmpDest_ne_zero (vl : VecLen) :
    ∃ w : VecVal, ∀ r, 1 ≤ r → r ≤ 3 → wordAt (tmpDest vl w (tmp1 vl w 0xE4)) r ≠ 0 := by
  refine ⟨0x100000000, fun r h1 h3 => ?_⟩
  have hr : r < vl.words := lt_of_le_of_lt h3 (by cases vl <;> decide)
  have hdiv : r / 4 = 0 := by omega
  have hmod : r % 4 = r := by omega
  have hsame : qwordAt (tmp1 vl 0x100000000 0xE4) 0 = qwordAt (0x100000000 : VecVal) 0 :=
    elem_eq_of_elem_eq (w := 8) (m := 8) (by decide) fun j hj =>
      byteAt_tmp1_E4 _ (lt_of_lt_of_le (b := 8) (by omega) (by cases vl <;> decide))
  have hsad : ∀ r < 4, 1 ≤ r →
      sadWord (qwordAt (0x100000000 : VecVal) 0) (qwordAt (0x100000000 : VecVal) 0) r ≠ 0 := by decide +kernel
  rw [wordAt_tmpDest _ _ _ _ hr, hdiv, hmod, hsame]
  exact hsad r (by omega) h1

/-! The masked write in its corner cases (40 R149), and the second source that was read. -/

/-- With all words masked off, merging keeps the low VL bits and zeroing leaves nothing. -/
theorem getLsbD_of_destIs_of_masked {vl : VecLen} {o : Operands} {s : State} {src2 new : VecVal}
    (h : destIs vl o s src2 new) (hmask : o.mask ≠ 0) (hbits : ∀ j < resultWords vl, (s.readK o.mask).getLsbD j = false)
    (b : Nat) : new.getLsbD b =
      (decide (b < 16 * resultWords vl) && (!o.zeroing && (s.readZmm o.dest).getLsbD b)) := by
  obtain ⟨hwords, habove⟩ := h
  by_cases hb : b < 16 * resultWords vl
  · have hj : b / 16 < resultWords vl := Nat.div_lt_of_lt_mul hb
    have hword : elem 16 new (b / 16) = _ := (hwords _ hj).2 hmask (hbits _ hj)
    rw [getLsbD_eq_elem (w := 16) (by decide), hword, getLsbD_eq_elem (w := 16) (by decide) (s.readZmm o.dest)]
    cases o.zeroing <;> simp [hb]
  · rw [habove b (Nat.le_of_not_lt hb), decide_eq_false hb, Bool.false_and]

/-- Where no word is masked off, neither the masking kind nor the old destination matters. -/
theorem newDest_of_all_written {vl : VecLen} {write write' : Nat → Bool} (zeroing zeroing' : Bool)
    (result old old' : VecVal) (h : ∀ j < resultWords vl, write j = true) (h' : ∀ j < resultWords vl, write' j = true) :
    newDest vl write zeroing result old = newDest vl write' zeroing' result old' := by
  refine pack_congr fun j hj => ?_
  rw [words_eq_resultWords] at hj
  rw [h j hj, h' j hj, if_pos rfl, if_pos rfl]

@[simp] theorem State.writeZmm_writeZmm (s : State) (r : BitVec 5) (v w : VecVal) :
    (s.writeZmm r v).writeZmm r w = s.writeZmm r w := by
  simp [State.writeZmm]

/-- An execution that passes the same gate, reads the same second source and completes alike is the same execution. -/
theorem execForm_congr {vl : VecLen} {o o' : Operands} {s s' : State} (hgate : gate vl s' = gate vl s)
    (hread : readSrc2 vl o' s' = readSrc2 vl o s)
    (hcompleted : ∀ src2, completed vl o' s' src2 = completed vl o s src2) :
    execForm vl o' s' = execForm vl o s := by
  rw [execForm_eq_mapNext (f := id) hgate hread hcompleted]
  cases execForm vl o s <;> rfl

/-- Mask bits that are all 1 do what no writemask does (40 R149). -/
theorem execForm_of_mask_ones {vl : VecLen} {o : Operands} {s : State}
    (hbits : ∀ j < resultWords vl, (s.readK o.mask).getLsbD j = true) :
    execForm vl o s = execForm vl { o with mask := 0, zeroing := false } s := by
  refine execForm_congr rfl rfl fun src2 => ?_
  have hresult : resultValue vl o s src2 = resultValue vl { o with mask := 0, zeroing := false } s src2 :=
    newDest_of_all_written _ _ _ _ _ (fun j hj => by simp [maskBit, hbits j hj]) fun j _ => by simp [maskBit]
  rw [completed, hresult]
  rfl

theorem readSrc2_writeZmm_of_ne {o : Operands} {r : BitVec 5} (h : o.src2 ≠ .reg r) (vl : VecLen) (s : State)
    (v : VecVal) : readSrc2 vl o (s.writeZmm r v) = readSrc2 vl o s := by
  unfold readSrc2
  cases hsrc2 : o.src2 with
  | reg q =>
    have hq : q ≠ r := fun e => h (by rw [hsrc2, e])
    simp only [State.readZmm_writeZmm_other _ _ _ hq]
  | mem m => rfl

/-- Without merging, the old value of a destination that is no source does not matter (40 R149). -/
theorem execForm_writeZmm_dest {vl : VecLen} {o : Operands} (s : State) (v : VecVal)
    (hmerge : o.mask = 0 ∨ o.zeroing = true) (hsrc1 : o.src1 ≠ o.dest) (hsrc2 : o.src2 ≠ .reg o.dest) :
    execForm vl o (s.writeZmm o.dest v) = execForm vl o s := by
  refine execForm_congr rfl (readSrc2_writeZmm_of_ne hsrc2 vl s v) fun src2 => ?_
  have hread1 : readSrc1 vl o (s.writeZmm o.dest v) = readSrc1 vl o s := by
    rw [readSrc1, readSrc1, State.readZmm_writeZmm_other _ _ _ hsrc1]
  have hresult : resultValue vl o (s.writeZmm o.dest v) src2 = resultValue vl o s src2 := by
    rw [resultValue, resultValue, hread1]
    rcases hmerge with hmask | hzero
    · have hall (u : State) : ∀ j < resultWords vl, maskBit o u j = true := fun j _ => by simp [maskBit, hmask]
      exact newDest_of_all_written _ _ _ _ _ (hall _) (hall _)
    · rw [hzero]
      rfl
  rw [completed, hresult, State.writeZmm_writeZmm]
  rfl

/-- A data byte that is found lies in memory where its address translates to. -/
theorem exists_byteMapsTo_of_dataByte {vl : VecLen} {o : Operands} {s : State} {m : MemOperand} {n : Nat} {b : Byte}
    (h : s.dataByte (operandLinear vl o s m + n) = some b) :
    ∃ pa, byteMapsTo vl o s m n pa ∧ s.mem.read pa = some b := by
  unfold State.dataByte at h
  split at h
  next pa hpa => exact ⟨pa, hpa, h⟩
  next => cases h

/-- The value an instruction reads has the bytes of its second source (20 R50, R53). -/
theorem exists_secondSource {vl : VecLen} {o : Operands} {s : State} {v : VecVal} (h : readSrc2 vl o s = .ok v) :
    ∃ src2, secondSource vl o s src2 ∧ ∀ b < operandBytes vl, byteAt v b = byteAt src2 b := by
  cases hsrc2 : o.src2 with
  | reg r =>
    have hv : low vl (s.readZmm r) = v := by simpa [readSrc2, hsrc2] using h
    have hbits := bits_eq_operandBytes vl
    refine ⟨s.readZmm r, by simp [secondSource, hsrc2], fun b hb => ?_⟩
    rw [← hv]
    exact elem_low _ _ _ _ (by omega)
  | mem m =>
    have hread := readSrc2_operandRead (vl := vl) s hsrc2
    rw [h] at hread
    cases hread with
    | plain _ _ _ hbytes =>
      refine ⟨v, ?_, fun _ _ => rfl⟩
      simp only [secondSource, hsrc2]
      exact fun n hn => exists_byteMapsTo_of_dataByte (hbytes n hn)

/-- What every completed instruction leaves in its destination (40 R133, R134, R136). -/
theorem exec_next_destIs {i : Instr} {s t : State} (h : exec i s = .next t) :
    ∃ src2, secondSource i.vecLen i.operands s src2 ∧
      destIs i.vecLen i.operands s src2 (t.readZmm i.operands.dest) := by
  obtain ⟨v, hread, rfl⟩ := exec_next h
  obtain ⟨src2, hsrc, hbytes⟩ := exists_secondSource hread
  rw [completed_readZmm_dest]
  exact ⟨src2, hsrc, resultValue_destIs _ _ hbytes⟩

end Sys2Proof.Machine

/-! The statements of the family 40_vdbpsadbw. -/

namespace Sys2Proof.Proofs

open Sys2Proof.Machine Sys2Proof.Claims

/-- Settles O27: `exec_next_destIs` for the instruction of a vector length. -/
theorem destinationFollowsRules : Obligations.DestinationFollowsRules := by
  intro vl o s t hexec
  cases vl <;> exact exec_next_destIs hexec

/-- Settles O30: the last clause of `destIs`. -/
theorem upperBitsZeroed : Obligations.UpperBitsZeroed := by
  intro i s t b hexec hb
  obtain ⟨src2, -, -, habove⟩ := exec_next_destIs hexec
  exact habove b hb

/-- Settles O31: words that are masked off are kept or 0, and a write of all words, or one that zeroes, does not read
the old destination. -/
theorem maskingCornerCases : Obligations.MaskingCornerCases := by
  refine ⟨fun i s t hexec hmask hbits => ?_, fun vl o s _ hbits => ?_, fun i s v hmerge hsrc1 hsrc2 => ?_⟩
  · obtain ⟨src2, -, hdest⟩ := exec_next_destIs hexec
    have hbit := getLsbD_of_destIs_of_masked hdest hmask hbits
    refine ⟨fun hz => BitVec.eq_of_getLsbD_eq fun b _ => ?_, fun hz b => ?_⟩
    · simp [hbit, hz]
    · simp [hbit, hz]
  · rw [exec_formInstr, exec_formInstr]
    exact execForm_of_mask_ones hbits
  · rw [exec_eq_execForm, exec_eq_execForm]
    exact execForm_writeZmm_dest s v hmerge hsrc1 hsrc2

/-- Settles O37: `byteAt_tmp1`. -/
theorem shuffleCopiesSelectedBytes : Obligations.ShuffleCopiesSelectedBytes :=
  fun _ src2 imm8 _ hb => byteAt_tmp1 src2 imm8 hb

/-- Settles O38: each of the four differences is at most 255. -/
theorem resultRange : Obligations.ResultRange := by
  refine ⟨fun a b => ⟨sad4_le a b, ?_⟩, fun i s t j hexec hj hwrite => ?_⟩
  · simp only [sad4_eq_1020_iff, absDiff_eq_255_iff]
  · obtain ⟨src2, -, hwords, -⟩ := exec_next_destIs hexec
    have hsum := (hwords j hj).1 hwrite
    have hle := sadOf_le (s.readZmm i.operands.src1) src2 i.operands.imm8 j
    omega

/-- Settles O39: `wordAt_tmpDest_congr`. -/
theorem resultWordFootprint : Obligations.ResultWordFootprint :=
  fun _ _ _ _ _ _ hj ha ht => wordAt_tmpDest_congr hj ha ht

/-- Settles O40: the footprint of a result word lies in its lane, and so do the bytes the shuffle selects. -/
theorem lanesIndependent : Obligations.LanesIndependent := by
  intro vl a a' b b' imm8 n hn ha hb
  refine elem_eq_of_elem_eq (w := 16) (m := 8) (by decide) fun j hj => ?_
  have hword : 8 * n + j < resultWords vl := by
    cases vl <;> simp only [operandBytes, resultWords] at hn ⊢ <;> omega
  refine wordAt_tmpDest_congr hword (fun k hk => byteAt_eq_of_laneAt_eq ha (by omega)) fun k hk => ?_
  have hlane : (8 * ((8 * n + j) / 4) + (8 * n + j) % 4 + k) / 16 = n := by omega
  have hbyte : 8 * ((8 * n + j) / 4) + (8 * n + j) % 4 + k < operandBytes vl := by
    cases vl <;> simp only [operandBytes] at hn ⊢ <;> omega
  rw [byteAt_tmp1 b imm8 hbyte, byteAt_tmp1 b' imm8 hbyte]
  exact byteAt_eq_of_laneAt_eq hb ((shuffledByte_div imm8 _).trans hlane)

/-- Settles O41: the selectors of each immediate; equal sources differ where they are shifted. -/
theorem notableImmediates : Obligations.NotableImmediates := by
  refine fun vl v => ⟨fun b hb => ?_, fun n d hn hd => ?_,
    fun n hn => ⟨qwordAt_tmp1_4E v hn (h := 0) (by decide), qwordAt_tmp1_4E v hn (h := 1) (by decide)⟩,
    fun t q => wordAt_tmpDest_of_qwordAt_eq, exists_wordAt_tmpDest_ne_zero vl⟩
  · have hbyte : elem 8 (tmp1 vl v 0xE4) (b / 8) = elem 8 v (b / 8) := byteAt_tmp1_E4 v (by omega)
    rw [getLsbD_eq_elem (w := 8) (by decide), hbyte, ← getLsbD_eq_elem (by decide)]
  · have h00 : ∀ d < 4, (0x00 : BitVec 8).toNat / 4 ^ d % 4 = 0 := by decide
    have hFF : ∀ d < 4, (0xFF : BitVec 8).toNat / 4 ^ d % 4 = 3 := by decide
    have h1B : ∀ d < 4, (0x1B : BitVec 8).toNat / 4 ^ d % 4 = 3 - d := by decide
    rw [dwordAt_tmp1_lane v _ hn hd, dwordAt_tmp1_lane v _ hn hd, dwordAt_tmp1_lane v _ hn hd, h00 d hd, hFF d hd,
      h1B d hd]
    exact ⟨rfl, rfl, rfl⟩

end Sys2Proof.Proofs

/-! Which faults there are, what they ask, and the launch premises (60 R172 to R180, 70 R211). -/

namespace Sys2Proof.Machine

open Sys2Proof.Claims

theorem gate_eq_nm {vl : VecLen} {s : State} : gate vl s = some .nm ↔ udState vl s = false ∧ s.ts = true := by
  cases h : udState vl s <;> cases h' : s.ts <;> simp [gate, h, h']

@[simp] theorem vecLen_formInstr (vl : VecLen) (o : Operands) : (formInstr vl o).vecLen = vl := by
  cases vl <;> rfl

@[simp] theorem operands_formInstr (vl : VecLen) (o : Operands) : (formInstr vl o).operands = o := by
  cases vl <;> rfl

/-! The second source of each operand form (40 R140 step 4). -/

theorem readSrc2_of_reg {o : Operands} {r : BitVec 5} (h : o.src2 = .reg r) (vl : VecLen) (s : State) :
    readSrc2 vl o s = .ok (low vl (s.readZmm r)) := by
  simp only [readSrc2, h]

theorem readSrc2_of_mem {o : Operands} {m : MemOperand} (h : o.src2 = .mem m) (vl : VecLen) (s : State) :
    readSrc2 vl o s = memRead s (operandSeg s o.prefixes m) (operandAddr vl o s m) vl.bytes := by
  simp only [readSrc2, h]

/-- The faults of MemRead, in the order of 60 R180: each is decided before a byte of memory is read. -/
theorem memRead_eq_fault {s : State} {sg : Seg} {ea : BitVec 64} {n : Nat} {f : Fault} :
    memRead s sg ea n = .error (.fault f) ↔
      segmentFaults s sg ea n = true ∧ segFault sg = f ∨
      segmentFaults s sg ea n = false ∧ (linearAddr s sg ea).toNat + n ≤ s.top ∧
        ((∃ g gs, pageFaults s (linearAddr s sg ea).toNat n = g :: gs ∧
            .pf (pickPageFault g gs).1 (BitVec.ofNat 64 (pickPageFault g gs).2) = f) ∨
          pageFaults s (linearAddr s sg ea).toNat n = [] ∧ alignFaults s (linearAddr s sg ea).toNat n = true ∧
            .ac = f) := by
  rcases memRead_cases s sg ea n with ⟨hseg, e⟩ | ⟨hseg, hwrap, e⟩ | ⟨hseg, hfit, g, gs, hpage, e⟩ |
    ⟨hseg, hfit, hpage, halign, e⟩ | ⟨hseg, hfit, hpage, halign, -, e⟩ | ⟨hseg, hfit, hpage, halign, -, e⟩
  · simp [e, hseg]
  · simp [e, hseg, Nat.not_le.2 hwrap]
  · simp [e, hseg, hfit, hpage]
  · simp [e, hseg, hfit, hpage, halign]
  · simp [e, hseg, hpage, halign]
  · simp [e, hseg, hpage, halign]

/-! The launch premises (70 R211). -/

section
variable (vl : VecLen) (o : Operands) (s : State) (src2 : VecVal)

@[simp] theorem modeOk_completed : Safety.modeOk (completed vl o s src2) = Safety.modeOk s := rfl

@[simp] theorem enabled_completed (vl' : VecLen) :
    Safety.enabled vl' (completed vl o s src2) = Safety.enabled vl' s := rfl

/-- The text is fetched from its base, wherever rip is, and no instruction writes memory. -/
@[simp] theorem textPresent_completed (base : Addr) (len : Nat) :
    Safety.textPresent base len (completed vl o s src2) = Safety.textPresent base len s := rfl

@[simp] theorem noDebug_completed : Safety.noDebug (completed vl o s src2) = Safety.noDebug s := rfl

end

theorem modeOk_iff (s : State) : Safety.modeOk s = true ↔ s.mode = .mode64 ∨ is32 s.mode ∧ s.csD = true := by
  simp [Safety.modeOk, is32]

/-- In an admitted mode `enabled` asks what lets an instruction to its operands, and xcr0 bit 0 (log 27). -/
theorem enabled_iff_of_modeOk (vl : VecLen) {s : State} (hmode : Safety.modeOk s = true) :
    Safety.enabled vl s = true ↔ ready vl s ∧ s.xcr0.getLsbD 0 = true := by
  have hmodes : s.mode ≠ .real ∧ s.mode ≠ .v86 := by
    rcases (modeOk_iff s).1 hmode with h | ⟨h | h, -⟩ <;> simp [h]
  rw [← gate_eq_none_iff_ready, gate_eq_none]
  simp [Safety.enabled, udState, hmodes, State.xcr0X87, and_assoc, and_comm, and_left_comm]

end Sys2Proof.Machine

/-! The statements of the family 60_exceptions. -/

namespace Sys2Proof.Proofs

open Sys2Proof.Machine Sys2Proof.Claims

/-- Settles O17: past the gate only the second source can fault, and never with #NM. -/
theorem nmExactlyOnTaskSwitched : Obligations.NmExactlyOnTaskSwitched := by
  intro i s
  rw [exec_eq_fault, gate_eq_nm, ← udState_iff, Bool.not_eq_true]
  exact or_iff_left fun ⟨_, hread⟩ => (readSrc2_fault hread).2 rfl

/-- Settles O23: the gate reads controls only, and the checks of MemRead read the address of the operand, the tables
of the segment and of `Translate`, and controls. -/
theorem faultsIndependentOfData : Obligations.FaultsIndependentOfData := by
  intro vl o s f zmm k gpr rip mxcsr x mem u haddr hexec
  rw [exec_eq_fault, vecLen_formInstr, operands_formInstr] at hexec ⊢
  refine hexec.imp id (And.imp_right fun hread => ?_)
  cases hsrc2 : o.src2 with
  | reg r => cases (readSrc2_of_reg hsrc2 vl s).symm.trans hread
  | mem m =>
    have hea : operandAddr vl (withImm x o) u m = operandAddr vl o s m := haddr m hsrc2
    rw [readSrc2_of_mem hsrc2, memRead_eq_fault] at hread
    rw [readSrc2_of_mem (o := withImm x o) hsrc2, hea, memRead_eq_fault]
    exact hread

/-- Settles O35: a register is read and the state completed without asking the level. -/
theorem registerFormsIgnorePrivilege : Obligations.RegisterFormsIgnorePrivilege := by
  intro i r s c hsrc2
  rw [exec_eq_execForm, exec_eq_execForm]
  refine execForm_eq_mapNext rfl ?_ fun _ => rfl
  rw [readSrc2_of_reg hsrc2, readSrc2_of_reg hsrc2]
  rfl

/-- Settles O55: a next state is a completed one, which meets each premise as the state before does; and under the
premises an instruction is ready. -/
theorem launchPremisesKept : Obligations.LaunchPremisesKept := by
  refine ⟨fun vl base len s t hstep => ?_, fun i s hmode henabled => ?_⟩
  · obtain ⟨i, rest, -, hexec⟩ := step_next hstep
    obtain ⟨src2, -, rfl⟩ := exec_next hexec
    rw [modeOk_completed, enabled_completed, textPresent_completed, noDebug_completed]
    exact ⟨id, id, id, id⟩
  · obtain ⟨⟨hud, hts⟩, -⟩ := (enabled_iff_of_modeOk i.vecLen hmode).1 henabled
    refine ⟨fun h => hud ((udExactlyOnStateConditions i s).1 h), fun h => ?_⟩
    obtain ⟨-, hset⟩ := (nmExactlyOnTaskSwitched i s).1 h
    exact Bool.false_ne_true (hts.symm.trans hset)

/-- Settles O24: the table of 60 R171, row by row. -/
theorem exceptionVectorsAndCodes : Obligations.ExceptionVectorsAndCodes :=
  fun _ _ => ⟨⟨rfl, rfl⟩, ⟨rfl, rfl⟩, ⟨rfl, rfl⟩, ⟨rfl, rfl⟩, ⟨rfl, rfl⟩, ⟨rfl, rfl⟩⟩

end Sys2Proof.Proofs

/-! Which bytes of a text can be fetched, and what a launch state is asked (60 R181, 70 R211, R213). -/

namespace Sys2Proof.Machine

open Sys2Proof.Claims

/-- An instruction byte is plain memory, lies outside, or faults. -/
theorem instrByte_or_outside_or_faults (s : State) (n : Nat) :
    (∃ b, instrByte s n b) ∨ instrOutside s n ∨ instrFaults s n := by
  by_cases hoff : s.top ≤ fetchOffset s n
  · exact .inr (.inl (.inl hoff))
  have hoff := Nat.lt_of_not_le hoff
  by_cases hcan : s.mode = .mode64 → isCanonical s.params (fetchOffset s n)
  case neg => exact .inr (.inr ⟨hoff, .inl (Classical.not_imp.1 hcan)⟩)
  have hreach : fetchReaches s n := ⟨hoff, hcan⟩
  cases htr : translate s.params.translate (fetchLinear s n) .fetch s.cpl with
  | error code => exact .inr (.inr ⟨hoff, .inr ⟨hreach, code, htr⟩⟩)
  | ok pa =>
    cases hmem : s.mem.read pa with
    | none => exact .inr (.inl (.inr ⟨hreach, pa, htr, hmem⟩))
    | some b => exact .inl ⟨b, hreach, pa, htr, hmem⟩

theorem fetchByte_eq_ok_iff {s : State} {n : Nat} {b : Byte} : s.fetchByte n = .ok b ↔ instrByte s n b := by
  refine ⟨fun h => ?_, fetchByte_of_instrByte⟩
  rcases instrByte_or_outside_or_faults s n with ⟨b', hbyte⟩ | hout | hfault
  · cases h.symm.trans (fetchByte_of_instrByte hbyte)
    exact hbyte
  · cases h.symm.trans (fetchByte_of_instrOutside hout)
  · cases h.symm.trans (fetchByte_of_instrFaults hfault)

theorem textPresent_iff (base : Addr) (len : Nat) (s : State) :
    Safety.textPresent base len s = true ↔ ∀ n < len, ∃ b, instrByte { s with rip := base } n b := by
  simp only [Safety.textPresent, List.all_eq_true, List.mem_range, ← fetchByte_eq_ok_iff]
  refine forall₂_congr fun n _ => ?_
  cases State.fetchByte { s with rip := base } n <;> simp

theorem noDebug_iff (s : State) : Safety.noDebug s = true ↔ s.rflags.getLsbD 8 = false := by
  rw [Safety.noDebug, Bool.not_eq_true', State.tf]

theorem launch_iff (vl : VecLen) (base : Addr) (len : Nat) (s : State) : Safety.launch vl base len s = true ↔
    Safety.modeOk s = true ∧ Safety.enabled vl s = true ∧ Safety.textPresent base len s = true ∧
      Safety.noDebug s = true ∧ s.rip = base := by
  simp only [Safety.launch, Bool.and_eq_true, beq_iff_eq, and_assoc]

end Sys2Proof.Machine

/-! The statement of the family 70_reset_and_hazards about launch states. -/

namespace Sys2Proof.Proofs

open Sys2Proof.Machine Sys2Proof.Claims

/-- Settles O56: each premise that `launch` asks, in the bits it reads; `enabled` in an admitted mode only. -/
theorem launchAsksPremisesAStateCanFail : Obligations.LaunchAsksPremisesAStateCanFail := by
  intro vl base len s
  rw [launch_iff, ← modeOk_iff, ← textPresent_iff, ← noDebug_iff, ← and_assoc (a := ready vl s)]
  exact and_congr_right fun hmode => and_congr_left' (enabled_iff_of_modeOk vl hmode)

end Sys2Proof.Proofs
